-- ==== Sys2Proof/Word.lean ====
section
/-! DEFINITION. The number types of the engine (00_scope.md R6, R7): 64-bit words, bytes, byte sequences. -/

namespace Sys2Proof

/-- A `u64`: a store word, a bit index, a hash value, a count, an operand (00_scope.md R6, R7). -/
abbrev Word := BitVec 64

/-- One byte of a payload or of a hash request. -/
abbrev Byte := BitVec 8

/-- A finite byte sequence, first byte first (00_scope.md R8). -/
abbrev Bytes := List Byte

end Sys2Proof
end

