-- ==== Sys2Proof/Syntax.lean ====
section
/-! DEFINITION. The commands of the engine and the frames that carry them (30_encoding.md R47 to R51). -/

namespace Sys2Proof

/-- The six commands, one constructor per row of spec/opcode_table.json, each with the operands its format uses
(30_encoding.md R49, R50). The parts a format ignores are not here: they have no effect (R55). -/
inductive Instr where
  /-- CREATE, format C: requested word count (ARG0), requested probe count (ARG1). 42_filter_commands.md R74. -/
  | create (wordCount probeCount : Word)
  /-- ADD, format S: the input string. 42_filter_commands.md R75. -/
  | add (payload : Bytes)
  /-- CONTAINS, format S: the input string. 42_filter_commands.md R76. -/
  | contains (payload : Bytes)
  /-- CAPACITY, format N. 42_filter_commands.md R79. -/
  | capacity
  /-- The PROBECOUNT command, format N. 42_filter_commands.md R80. -/
  | probecount
  /-- RDWORD, format W: the word index (ARG0). 40_bitstore.md R63. -/
  | rdword (index : Word)
deriving DecidableEq, Repr

/-- The names of the opcode map (30_encoding.md R51). -/
inductive Opcode where
  | create | add | contains | capacity | probecount | rdword
deriving DecidableEq, Repr

/-- The four formats (30_encoding.md R49). -/
inductive Format where
  | C | S | N | W
deriving DecidableEq, Repr

/-- A command frame: the 192-bit descriptor D and the payload (30_encoding.md R47). -/
structure Frame where
  desc : BitVec 192
  payload : Bytes
deriving DecidableEq, Repr

/-- Why a descriptor selects no command (30_encoding.md R54); both reasons answer ERR_ILLEGAL (60_exceptions.md R89). -/
inductive DecodeError where
  /-- OPCODE is 0x00 or 0x07 to 0xFF. -/
  | unassignedOpcode (opcode : Byte)
  /-- OPCODE is 0x01 to 0x06 and RSV is not 0. -/
  | reservedFieldNonzero (rsv : BitVec 56)
deriving DecidableEq, Repr

end Sys2Proof
end

