-- ==== Sys2Proof/Decode.lean ====
section
/-! DEFINITION. Decoding and encoding of command frames (30_encoding.md R47 to R58). The decoder is total and reads no
state (R57); the encoder writes 0 in ignored operands and an empty payload where the payload is ignored (R55, R58). -/

namespace Sys2Proof

/-- W0 = D[63:0] (R47). -/
def Frame.w0 (f : Frame) : Word := f.desc.extractLsb' 0 64

/-- W1 = D[127:64] = ARG0 (R47, R48). -/
def Frame.arg0 (f : Frame) : Word := f.desc.extractLsb' 64 64

/-- W2 = D[191:128] = ARG1 (R47, R48). -/
def Frame.arg1 (f : Frame) : Word := f.desc.extractLsb' 128 64

/-- OPCODE = W0[7:0] (R48). -/
def opcodeField (w0 : Word) : Byte := w0.extractLsb' 0 8

/-- RSV = W0[63:8] (R48). -/
def rsvField (w0 : Word) : BitVec 56 := w0.extractLsb' 8 56

/-- A frame from its three words, sent in the order W0, W1, W2 (R47). -/
def Frame.ofWords (w0 w1 w2 : Word) (payload : Bytes) : Frame :=
  { desc := w2 ++ w1 ++ w0, payload := payload }

/-- The opcode numbers (R51). -/
def Opcode.code : Opcode → Byte
  | .create => 0x01
  | .add => 0x02
  | .contains => 0x03
  | .capacity => 0x04
  | .probecount => 0x05
  | .rdword => 0x06

/-- The format column of the opcode map (R51). -/
def Opcode.format : Opcode → Format
  | .create => .C
  | .add => .S
  | .contains => .S
  | .capacity => .N
  | .probecount => .N
  | .rdword => .W

/-- The opcode map read as a list of rows (R51). -/
def Opcode.all : List Opcode := [.create, .add, .contains, .capacity, .probecount, .rdword]

/-- The command an OPCODE value is assigned to, if any (R51, R54). -/
def Opcode.ofCode (b : Byte) : Option Opcode := Opcode.all.find? (fun o => o.code == b)

/-- Steps (1) and (2) of R57: the command that W0 selects, or why it selects none (R54). -/
def decodeOpcode (w0 : Word) : Except DecodeError Opcode :=
  match Opcode.ofCode (opcodeField w0) with
  | none => .error (.unassignedOpcode (opcodeField w0))
  | some o => if rsvField w0 = 0 then .ok o else .error (.reservedFieldNonzero (rsvField w0))

/-- Step (3) of R57: take the operands the format uses, ignore the rest (R49, R50, R55). -/
def Frame.operands (f : Frame) : Opcode → Instr
  | .create => .create f.arg0 f.arg1
  | .add => .add f.payload
  | .contains => .contains f.payload
  | .capacity => .capacity
  | .probecount => .probecount
  | .rdword => .rdword f.arg0

/-- The decoder, in full (R57). -/
def decode (f : Frame) : Except DecodeError Instr :=
  (decodeOpcode f.w0).map f.operands

/-- The opcode of a command. -/
def Instr.opcode : Instr → Opcode
  | .create _ _ => .create
  | .add _ => .add
  | .contains _ => .contains
  | .capacity => .capacity
  | .probecount => .probecount
  | .rdword _ => .rdword

/-- W0 of an opcode: the opcode zero-extended to 64 bits (R51). -/
def Opcode.w0 (o : Opcode) : Word := o.code.setWidth 64

/-- The frame a command assembles to (the table of R58). -/
def encode : Instr → Frame
  | .create w k => .ofWords Opcode.create.w0 w k []
  | .add s => .ofWords Opcode.add.w0 0 0 s
  | .contains s => .ofWords Opcode.contains.w0 0 0 s
  | .capacity => .ofWords Opcode.capacity.w0 0 0 []
  | .probecount => .ofWords Opcode.probecount.w0 0 0 []
  | .rdword i => .ofWords Opcode.rdword.w0 i 0 []

/-- The frame of an opcode-table word: the descriptor's low `nbits` bits are `w`'s, the others 0, the payload is empty
(spec/opcode_table.json numbers the descriptor's bits as R47 numbers D; log entry 14). -/
def frameOfTableWord (nbits w : Nat) : Frame :=
  { desc := BitVec.ofNat 192 (w % 2 ^ nbits), payload := [] }

/-- What the decoder reads from an opcode-table word. -/
def decodeTableWord (nbits w : Nat) : Option Instr :=
  match decode (frameOfTableWord nbits w) with
  | .ok i => some i
  | .error _ => none

end Sys2Proof
end

