-- ==== Sys2Proof/Config.lean ====
section
/-! DEFINITION. What one instance of the engine fixes, and the values the spec leaves free.

00_scope.md R5: "A model of the BFE takes two parameters as arguments, and nothing else varies between instances."
They are the two fields of `Chip`. The operations of Sys2Proof/Machine take a `Chip`; the six meanings and the step
use `Config.chip`, whose two fields are opaque, so nothing proved about them can rest on a particular value. -/

namespace Sys2Proof

/-- The two parameters of 00_scope.md R5. `topWord` is the highest physical word index, W_MAX - 1, so that
`1 <= W_MAX <= 2^58 - 1` holds of every `Chip`. -/
structure Chip where
  /-- W_MAX - 1 -/
  topWord : Fin (2 ^ 58 - 2 + 1)
  /-- the external hash unit's function, total and a function of the bytes alone (R5, 60_exceptions.md R98) -/
  hash64 : Bytes → Word

/-- W_MAX, the number of 64-bit words the physical store holds (00_scope.md R5). -/
def Chip.wMax (c : Chip) : Nat := c.topWord.val + 1

/-- W_MAX - 1 of this instance: any legal value (92_eei_decisions.md D4, OPEN; log entry 5). -/
opaque Config.topWord : Fin (2 ^ 58 - 2 + 1)

/-- The hash function of this instance: any function (92_eei_decisions.md D20, OPEN; log entry 6). -/
opaque Config.hash64 : Bytes → Word

/-- The instance the meanings and the step run on. -/
def Config.chip : Chip := { topWord := Config.topWord, hash64 := Config.hash64 }

/-- The free values: what a working register holds once its command has ended is unspecified (10_state.md R18, R28;
93_implementation_defined.md U6: any value). The `n`-th value drawn is `Config.freeWord n` (log entry 4). -/
opaque Config.freeWord : Nat → Word

end Sys2Proof
end

