-- ==== Sys2Proof/Machine/State.lean ====
section
/-! DEFINITION. The state of the engine as plain data, the reasons a step can stop, and the state after reset.
INVENTORY.md lists every field with its rule. -/

namespace Sys2Proof.Machine

/-- BITS as cells (word index, word): strictly rising indices, no cell holds 0; an index not listed reads 0
(10_state.md R20, R28; 20_memory.md R30: the addressable unit is the 64-bit word; log entry 1). -/
abbrev Memory := List (Nat × Word)

/-- The eight working registers (10_state.md R18). -/
structure Working where
  /-- BASE: the hash of the payload -/
  base : Word
  /-- CTR: the 8-byte counter -/
  ctr : Word
  /-- I: the probe index -/
  i : Word
  /-- H: the current probe value -/
  h : Word
  /-- IDX: the bit index -/
  idx : Word
  /-- BUCKET: the word index, `IDX / 64` -/
  bucket : BitVec 58
  /-- BITOFF: `IDX % 64` -/
  bitoff : BitVec 6
  /-- HIT: the running AND of CONTAINS (R19) -/
  hit : Bool
deriving DecidableEq, Repr

/-- The status codes a response may carry (30_encoding.md R53). -/
inductive Status where
  | ok | errIllegal | errCapacity | errRange
deriving DecidableEq, Repr

/-- A response: STATUS and VALUE (30_encoding.md R52). Its two words are `Response.r0` and `Response.r1`. -/
structure Response where
  status : Status
  value : Word
deriving DecidableEq, Repr

/-- What the hash unit will do: meet its contract and answer every request (60_exceptions.md R98), or answer `n` more
requests and then never again (R100; log entry 9). -/
inductive HashUnit where
  | answersAll
  | answersOnly (n : Nat)
deriving DecidableEq, Repr

/-- The reset input at one step (70_reset_and_hazards.md R104). `asserted offered` asserts and releases it; `offered`
are the frames the platform presents from then on: of those it had buffered, the ones it delivers, and any later ones
(R105; 93_implementation_defined.md U10; log entry 10). -/
inductive ResetInput where
  | released
  | asserted (offered : List Frame)
deriving DecidableEq, Repr

/-- The machine's state. -/
structure State where
  /-- WORDCOUNT (10_state.md R14) -/
  wordCount : Word
  /-- PROBECOUNT (10_state.md R15) -/
  probeCount : Word
  /-- BITS (10_state.md R20) -/
  bits : Memory
  /-- the working registers (10_state.md R18) -/
  work : Working
  /-- the hash request sent and not answered; with it the engine holds its command (30_encoding.md R60, 60_exceptions.md R100) -/
  outstanding : Option Bytes
  /-- MODEL'S OWN: the frames offered on the command port and not yet accepted, in order (20_memory.md R43) -/
  offered : List Frame
  /-- MODEL'S OWN: the responses sent since the last reset, in order (30_encoding.md R52) -/
  responses : List Response
  /-- MODEL'S OWN: the hash requests sent since the last reset, in order (60_exceptions.md R99) -/
  hashRequests : List Bytes
  /-- MODEL'S OWN: what the hash unit will do (60_exceptions.md R98, R100) -/
  hashUnit : HashUnit
  /-- MODEL'S OWN: the reset input at the coming steps; released at every step not listed (70_reset_and_hazards.md R104) -/
  resetLine : List ResetInput
  /-- MODEL'S OWN: how many free values have been drawn (log entry 4) -/
  freeUsed : Nat
deriving DecidableEq, Repr

/-- Why the machine stops. -/
inductive Fault where
  /-- Raised by ADD and CONTAINS in a state with WORDCOUNT = 0, where TOTALBITS, the modulus, is 0. No reachable state has
  it (10_state.md R23) and "division by zero cannot occur anywhere in the engine" (42_filter_commands.md R78). SAFE: the
  model stops and says nothing further (log entry 11). -/
  | zeroModulus
deriving DecidableEq, Repr

/-- Why an instruction has no meaning. -/
inductive Refusal where
  /-- Raised by an arm of `exec` that has no meaning yet. SAFE. Every arm has its meaning, so nothing raises it. -/
  | notModelled (mnemonic : String)
deriving DecidableEq, Repr

/-- What a step answers. -/
abbrev Answer := Host.Outcome State Fault Refusal

/-- How far the engine gets with a part of a command: to its end, or to a hash request that is never answered
(60_exceptions.md R100). -/
inductive Progress (α : Type) where
  | done (a : α) (s : State)
  | waits (s : State)

/-- What the engine turns to at a step (60_exceptions.md R100, R102; 70_reset_and_hazards.md R104, R115). -/
inductive Event where
  /-- the reset input is asserted -/
  | reset (offered : List Frame)
  /-- a hash request is unanswered: the engine holds a command and waits -/
  | hashWait
  /-- no command is held and none is offered -/
  | idle
  /-- the engine is free and a frame is offered -/
  | frame (f : Frame)
deriving DecidableEq, Repr

/-- The working registers after reset: the spec leaves them unspecified (10_state.md R28). DESIGN CHOICE 0, log entry 3. -/
def Working.reset : Working :=
  { base := 0, ctr := 0, i := 0, h := 0, idx := 0, bucket := 0, bitoff := 0, hit := false }

/-- The machine right after reset (10_state.md R28, 70_reset_and_hazards.md R104): WORDCOUNT = 1, PROBECOUNT = 1,
BITS[0] = 0, no command held, no hash request outstanding. -/
def State.reset : State :=
  { wordCount := 1, probeCount := 1, bits := [], work := Working.reset, outstanding := none, offered := [],
    responses := [], hashRequests := [], hashUnit := .answersAll, resetLine := [], freeUsed := 0 }

end Sys2Proof.Machine
end

