-- ==== Sys2Proof/Machine/Flags.lean ====
section
/-! DEFINITION. The one flag, HIT (10_state.md R19): CONTAINS sets it, clears it at the first miss and returns it. -/

namespace Sys2Proof.Machine

/-- `HIT <- v`. -/
def setHit (v : Bool) (s : State) : State := { s with work := { s.work with hit := v } }

/-- HIT as the VALUE of CONTAINS: bit 0 is HIT, bits 63 to 1 are 0 (30_encoding.md R53, 42_filter_commands.md R76). -/
def hitValue (hit : Bool) : Word := if hit then 1 else 0

end Sys2Proof.Machine
end

