-- ==== Sys2Proof/Machine/Operands.lean ====
section
/-! DEFINITION. The arithmetic the commands apply to operands, hash values and indices: bytes, `le64`, `bswap64`
(00_scope.md R8, R9), the clamp, the index map and the bit mask (20_memory.md R31, R32; 42_filter_commands.md R78). -/

namespace Sys2Proof.Machine

/-- Byte `j` of `v`: bits 8j+7 to 8j (00_scope.md R8). -/
def byteOf (v : Word) (j : Nat) : Byte := v.extractLsb' (8 * j) 8

/-- `le64(v)`: least significant byte first (00_scope.md R9, 20_memory.md R33). -/
def le64 (v : Word) : Bytes :=
  [byteOf v 0, byteOf v 1, byteOf v 2, byteOf v 3, byteOf v 4, byteOf v 5, byteOf v 6, byteOf v 7]

/-- `bswap64(v)`: byte `j` of the result is byte `7 - j` of `v` (00_scope.md R9, 20_memory.md R34). -/
def bswap64 (v : Word) : Word :=
  byteOf v 0 ++ byteOf v 1 ++ byteOf v 2 ++ byteOf v 3 ++ byteOf v 4 ++ byteOf v 5 ++ byteOf v 6 ++ byteOf v 7

/-- `max(a, b)`, unsigned (00_scope.md R7). -/
def maxWord (a b : Word) : Word := if a.toNat < b.toNat then b else a

/-- `max(x, 1)`: CREATE's clamp (42_filter_commands.md R74, R78 (a)). -/
def clamp (x : Word) : Word := maxWord x 1

/-- `bucket = index / 64`, the word index (20_memory.md R31). -/
def bucketOf (index : Nat) : Nat := index / 64

/-- `bitOffset = index % 64`, the bit number inside the word (20_memory.md R31). -/
def bitOffsetOf (index : Nat) : Nat := index % 64

/-- The mask of a bit number: `1 << bitOffset` (20_memory.md R32). -/
def bitMask (bitOffset : Nat) : Word := (1 : Word) <<< bitOffset

/-- IDX = H % TOTALBITS, which carries its bound (41_probe_sequence.md R70; 40_bitstore.md R61; log entry 12). -/
def bitIndex (h : Word) {t : Nat} (ht : 0 < t) : Fin t := ⟨h.toNat % t, Nat.mod_lt _ ht⟩

end Sys2Proof.Machine
end

