-- ==== Sys2Proof/Machine/Ops.lean ====
section
/-! DEFINITION. The operations the commands are written over: the store's words, responses and error responses, hash
requests, the end of a command, reset, and the command port. -/

namespace Sys2Proof.Machine

/-! ### The store's words -/

/-- `MemRead(w, 8)`: the word at index `w`; an index not listed holds 0 (00_scope.md R10, log entry 1). -/
def Memory.read : Memory → Nat → Word
  | [], _ => 0
  | (a, v) :: m, w => if a = w then v else Memory.read m w

/-- `MemWrite(w, 8, v)`, keeping the canonical form: writing 0 takes the cell out (00_scope.md R10, log entry 1). -/
def Memory.write : Memory → Nat → Word → Memory
  | [], w, v => if v = 0 then [] else [(w, v)]
  | (a, u) :: m, w, v =>
    if w < a then (if v = 0 then (a, u) :: m else (w, v) :: (a, u) :: m)
    else if w = a then (if v = 0 then m else (w, v) :: m)
    else (a, u) :: Memory.write m w v

/-- The canonical form: indices strictly rising, no cell holds 0. -/
def Memory.wf : Memory → Bool
  | [] => true
  | (a, v) :: m => v != 0 && m.all (fun c => decide (a < c.1)) && Memory.wf m

/-- Every listed index is below `n`. -/
def Memory.below (n : Nat) (m : Memory) : Bool := m.all (fun c => decide (c.1 < n))

/-- The bit at a global bit index: bit `index % 64` of word `index / 64` (20_memory.md R31, R32). -/
def Memory.bit (m : Memory) (index : Nat) : Bool :=
  (m.read (bucketOf index)).getLsbD (bitOffsetOf index)

/-- SETBIT's write: one word read, one more bit set, the same word written (40_bitstore.md R61, 20_memory.md R38). -/
def Memory.setBit (m : Memory) (index : Nat) : Memory :=
  m.write (bucketOf index) (m.read (bucketOf index) ||| bitMask (bitOffsetOf index))

/-- TOTALBITS = WORDCOUNT * 64, exact (10_state.md R16). -/
def State.totalBits (s : State) : Nat := s.wordCount.toNat * 64

/-! ### Responses -/

/-- The status numbers (30_encoding.md R53). -/
def Status.code : Status → Byte
  | .ok => 0x00
  | .errIllegal => 0x01
  | .errCapacity => 0x02
  | .errRange => 0x03

/-- R0: STATUS in bits 7 to 0, zeros above (30_encoding.md R52). -/
def Response.r0 (r : Response) : Word := r.status.code.setWidth 64

/-- R1: VALUE (30_encoding.md R52). -/
def Response.r1 (r : Response) : Word := r.value

/-- `respond(STATUS, VALUE)`: send the response and end the command (00_scope.md R10). -/
def respond (status : Status) (value : Word) (s : State) : State :=
  { s with responses := s.responses ++ [{ status := status, value := value }] }

/-- The three errors (60_exceptions.md R88). -/
inductive EngineError where
  | illegal | capacity | range
deriving DecidableEq, Repr

/-- The status of an error (60_exceptions.md R89 to R91). -/
def EngineError.status : EngineError → Status
  | .illegal => .errIllegal
  | .capacity => .errCapacity
  | .range => .errRange

/-- `raise <ERR_x>`, the one way an error is taken: `respond(ERR_x, 0)` and nothing else changes. Nothing is saved, no
mode changes and there is nothing to return from (00_scope.md R10; 60_exceptions.md R88, R92, R95). -/
def raise (e : EngineError) (s : State) : State := respond e.status 0 s

/-! ### The hash port -/

/-- Go on with `k` when the part is done; a part that waits stays waiting. -/
def Progress.andThen {α β : Type} (p : Progress α) (k : α → State → Progress β) : Progress β :=
  match p with
  | .done a s => k a s
  | .waits s => .waits s

/-- The state a command leaves: `k`'s when it is done, the waiting one when a hash request stays unanswered. -/
def Progress.finish {α : Type} (p : Progress α) (k : α → State → State) : State :=
  match p with
  | .done a s => k a s
  | .waits s => s

/-- `HashReq(bs)`: send the bytes as they are; the reply is `hash64 bs` (30_encoding.md R60, 60_exceptions.md R98). A
request that is never answered stays outstanding and the state stays as it was when it was sent (60_exceptions.md R100). -/
def hashReq (c : Chip) (bs : Bytes) (s : State) : Progress Word :=
  match s.hashUnit with
  | .answersAll => .done (c.hash64 bs) { s with hashRequests := s.hashRequests ++ [bs], outstanding := none }
  | .answersOnly 0 => .waits { s with hashRequests := s.hashRequests ++ [bs], outstanding := some bs }
  | .answersOnly (n + 1) =>
    .done (c.hash64 bs)
      { s with hashRequests := s.hashRequests ++ [bs], outstanding := none, hashUnit := .answersOnly n }

/-! ### The end of a command that used the working registers -/

/-- At the end of ADD the seven registers it wrote become unspecified; HIT is not ADD's to write (10_state.md R18, R19;
log entry 4). -/
def endAdd (s : State) : State :=
  { s with
    work :=
      { base := Config.freeWord s.freeUsed
        ctr := Config.freeWord (s.freeUsed + 1)
        i := Config.freeWord (s.freeUsed + 2)
        h := Config.freeWord (s.freeUsed + 3)
        idx := Config.freeWord (s.freeUsed + 4)
        bucket := (Config.freeWord (s.freeUsed + 5)).setWidth 58
        bitoff := (Config.freeWord (s.freeUsed + 6)).setWidth 6
        hit := s.work.hit }
    freeUsed := s.freeUsed + 7 }

/-- At the end of CONTAINS all eight become unspecified (10_state.md R18, R19; log entry 4). -/
def endContains (s : State) : State :=
  let t := endAdd s
  { t with
    work := { t.work with hit := (Config.freeWord t.freeUsed).getLsbD 0 }
    freeUsed := t.freeUsed + 1 }

/-! ### Reset and the command port -/

/-- Reset: the reset state, whatever went before, a command in progress included (70_reset_and_hazards.md R104, R105).
The frames offered from then on are the platform's choice; the hash unit is outside the engine and stays as it is; the
free values go on being fresh (log entries 9, 10). -/
def resetEngine (offered : List Frame) (s : State) : State :=
  { State.reset with offered := offered, resetLine := s.resetLine, hashUnit := s.hashUnit, freeUsed := s.freeUsed }

/-- The reset input moves on by one step. -/
def advanceReset (s : State) : State := { s with resetLine := s.resetLine.tail }

/-- The frame at the front of the port is accepted (20_memory.md R43). -/
def takeFrame (s : State) : State := { s with offered := s.offered.tail }

/-- What the engine turns to: reset at any time (70_reset_and_hazards.md R105); else a command it still holds
(60_exceptions.md R100); else the frame offered first (R115), or nothing (60_exceptions.md R102). -/
def nextEvent (s : State) : Event :=
  match s.resetLine with
  | .asserted offered :: _ => .reset offered
  | _ =>
    match s.outstanding, s.offered with
    | some _, _ => .hashWait
    | none, [] => .idle
    | none, f :: _ => .frame f

/-- `s` with a frame in front of all others on the port, the engine free to take it and the reset input released at the
next step (log entry 13). -/
def presentFrame (f : Frame) (s : State) : State :=
  { s with outstanding := none, offered := f :: s.offered, resetLine := .released :: s.resetLine }

end Sys2Proof.Machine
end

