-- ==== Sys2Proof/Machine/BitStore.lean ====
section
/-! DEFINITION. The bit array store: SETBIT, TESTBIT (40_bitstore.md R61, R62) and the RDWORD command (R63).

The micro-operations take the index with its bound, `index < TOTALBITS` (`t` is TOTALBITS, which no micro-operation
changes), so the out-of-range case is not given a value (R61; 93_implementation_defined.md U3; log entry 12). -/

namespace Sys2Proof.Machine

/-- BUCKET <- index / 64, BITOFF <- index % 64 (40_bitstore.md R61, R62; `index[63:6]`, `index[5:0]`). -/
def noteBitAddress {t : Nat} (index : Fin t) (s : State) : State :=
  { s with work :=
      { s.work with
        bucket := BitVec.ofNat 58 (bucketOf index.val)
        bitoff := BitVec.ofNat 6 (bitOffsetOf index.val) } }

/-- SETBIT(index) (40_bitstore.md R61). -/
def setBit {t : Nat} (index : Fin t) (s : State) : State :=
  noteBitAddress index { s with bits := s.bits.setBit index.val }

/-- TESTBIT(index): the bit, and the state with BUCKET and BITOFF written (40_bitstore.md R62). -/
def testBit {t : Nat} (index : Fin t) (s : State) : Bool × State :=
  (s.bits.bit index.val, noteBitAddress index s)

/-- RDWORD (40_bitstore.md R63): ERR_RANGE at or above WORDCOUNT, checked before the store is read. -/
def execRdword (index : Word) (s : State) : Answer :=
  if s.wordCount.toNat ≤ index.toNat then .next (raise .range s)
  else .next (respond .ok (s.bits.read index.toNat) s)

end Sys2Proof.Machine
end

