-- ==== Sys2Proof/Machine/ProbeSequence.lean ====
section
/-! DEFINITION. The probe-sequence generator in its iterative form (41_probe_sequence.md R66 to R71). -/

namespace Sys2Proof.Machine

/-- PROBE_INIT(payload): BASE <- HashReq(payload); CTR <- BASE; I <- 0 (41_probe_sequence.md R66, R71). -/
def probeInit (c : Chip) (payload : Bytes) (s : State) : Progress Unit :=
  (hashReq c payload s).andThen fun base s =>
    .done () { s with work := { s.work with base := base, ctr := base, i := 0 } }

/-- The probe value of the probe numbered I: `bswap64(BASE)` with no hash request for probe 0, `HashReq(le64(CTR))` for
every later one (41_probe_sequence.md R67, R68). -/
def probeHash (c : Chip) (s : State) : Progress Word :=
  if s.work.i = 0 then .done (bswap64 s.work.base) s else hashReq c (le64 s.work.ctr) s

/-- The rest of PROBE_STEP: H, then CTR <- CTR + 1 modulo 2^64, IDX <- H % TOTALBITS, I <- I + 1
(41_probe_sequence.md R69 to R71). -/
def noteProbe {t : Nat} (h : Word) (index : Fin t) (s : State) : State :=
  { s with work :=
      { s.work with
        h := h
        ctr := s.work.ctr + 1
        idx := BitVec.ofNat 64 index.val
        i := s.work.i + 1 } }

/-- PROBE_STEP(): one probe; answers its index (41_probe_sequence.md R71). -/
def probeStep (c : Chip) {t : Nat} (ht : 0 < t) (s : State) : Progress (Fin t) :=
  (probeHash c s).andThen fun h s =>
    .done (bitIndex h ht) (noteProbe h (bitIndex h ht) s)

/-- PROBE_INIT and then `n` PROBE_STEPs with no bit access between them: the generator by itself
(41_probe_sequence.md R65, R71). Answers the indices in probe order. -/
def probeSteps (c : Chip) {t : Nat} (ht : 0 < t) : Nat → State → Progress (List (Fin t))
  | 0, s => .done [] s
  | n + 1, s => (probeStep c ht s).andThen fun index s =>
      (probeSteps c ht n s).andThen fun rest s => .done (index :: rest) s

end Sys2Proof.Machine
end

