-- ==== Sys2Proof/Machine/Filter.lean ====
section
/-! DEFINITION. The filter commands CREATE, ADD, CONTAINS, CAPACITY, PROBECOUNT (42_filter_commands.md R74 to R80).

The three that depend on a parameter of 00_scope.md R5 are written for any `Chip` (`createOn`, `addOn`, `containsOn`);
the meaning of the command is that operation on `Config.chip`. -/

namespace Sys2Proof.Machine

/-- CREATE on an engine of `c.wMax` words (42_filter_commands.md R74). -/
def createOn (c : Chip) (arg0 arg1 : Word) (s : State) : Answer :=
  if c.wMax < (clamp arg0).toNat then .next (raise .capacity s)
  else .next (respond .ok 0 { s with wordCount := clamp arg0, probeCount := clamp arg1, bits := [] })

/-- The loop of ADD: `n` more probes, each derived and then set (42_filter_commands.md R75). `n` is PROBECOUNT - I
(log entry 18). -/
def addProbes (c : Chip) {t : Nat} (ht : 0 < t) : Nat → State → Progress Unit
  | 0, s => .done () s
  | n + 1, s => (probeStep c ht s).andThen fun index s => addProbes c ht n (setBit index s)

/-- ADD (42_filter_commands.md R75). -/
def addOn (c : Chip) (payload : Bytes) (s : State) : Answer :=
  if ht : 0 < s.totalBits then
    .next (((probeInit c payload s).andThen fun _ s1 => addProbes c ht s.probeCount.toNat s1).finish
      fun _ s2 => endAdd (respond .ok 0 s2))
  else .fault .zeroModulus

/-- The loop of CONTAINS: at most `n` more probes, each derived and then tested; the first clear bit clears HIT and ends
the loop (42_filter_commands.md R76). -/
def containsProbes (c : Chip) {t : Nat} (ht : 0 < t) : Nat → State → Progress Unit
  | 0, s => .done () s
  | n + 1, s => (probeStep c ht s).andThen fun index s =>
      match testBit index s with
      | (true, s) => containsProbes c ht n s
      | (false, s) => .done () (setHit false s)

/-- CONTAINS (42_filter_commands.md R76). -/
def containsOn (c : Chip) (payload : Bytes) (s : State) : Answer :=
  if ht : 0 < s.totalBits then
    .next (((probeInit c payload s).andThen fun _ s1 => containsProbes c ht s.probeCount.toNat (setHit true s1)).finish
      fun _ s2 => endContains (respond .ok (hitValue s2.work.hit) s2))
  else .fault .zeroModulus

/-- CREATE (42_filter_commands.md R74). -/
def execCreate (arg0 arg1 : Word) (s : State) : Answer := createOn Config.chip arg0 arg1 s

/-- ADD (42_filter_commands.md R75). -/
def execAdd (payload : Bytes) (s : State) : Answer := addOn Config.chip payload s

/-- CONTAINS (42_filter_commands.md R76). -/
def execContains (payload : Bytes) (s : State) : Answer := containsOn Config.chip payload s

/-- CAPACITY answers WORDCOUNT verbatim, a number of words (42_filter_commands.md R79). -/
def execCapacity (s : State) : Answer := .next (respond .ok s.wordCount s)

/-- The PROBECOUNT command answers the register PROBECOUNT (42_filter_commands.md R80). -/
def execProbecount (s : State) : Answer := .next (respond .ok s.probeCount s)

end Sys2Proof.Machine
end

