-- ==== Sys2Proof/Machine/Dispatch.lean ====
section
/-! DEFINITION. One arm per command (30_encoding.md R51). -/

namespace Sys2Proof.Machine

def exec (i : Instr) (s : State) : Host.Outcome State Fault Refusal :=
  match i with
  | .create wordCount probeCount => Sys2Proof.Machine.execCreate wordCount probeCount s
  | .add payload => Sys2Proof.Machine.execAdd payload s
  | .contains payload => Sys2Proof.Machine.execContains payload s
  | .capacity => Sys2Proof.Machine.execCapacity s
  | .probecount => Sys2Proof.Machine.execProbecount s
  | .rdword index => Sys2Proof.Machine.execRdword index s

end Sys2Proof.Machine
end

