-- ==== Sys2Proof/Machine/Accept.lean ====
section
/-! DEFINITION. Handling one accepted frame: decode first, then the command (60_exceptions.md R93). -/

namespace Sys2Proof.Machine

/-- An accepted frame: its command, or ERR_ILLEGAL when its descriptor selects none (30_encoding.md R54, R57;
60_exceptions.md R89). -/
def accept (f : Frame) (s : State) : Answer :=
  match decode f with
  | .ok i => exec i s
  | .error _ => .next (raise .illegal s)

/-- One step at an event. -/
def handle (e : Event) (s : State) : Answer :=
  match e with
  | .reset offered => .next (resetEngine offered s)
  | .hashWait => .next s
  | .idle => .next s
  | .frame f => accept f (takeFrame s)

end Sys2Proof.Machine
end

