-- ==== Sys2Proof/Machine/Step.lean ====
section
/-! DEFINITION. The step: the engine turns to one event (20_memory.md R43: one command at a time, in arrival order; log
entry 8), and the port as the host's checks place a word on it. -/

namespace Sys2Proof.Machine

/-- One step. -/
def step (s : State) : Host.Outcome State Fault Refusal := handle (nextEvent s) (advanceReset s)

/-- `s` with the frame of an opcode-table word as the one the next step accepts (log entries 13, 14). -/
def State.withFetchWord (s : State) (nbits w : Nat) : State := presentFrame (frameOfTableWord nbits w) s

end Sys2Proof.Machine
end

