-- ==== Sys2Proof/Machine/ClosedForm.lean ====
section
/-! DEFINITION. The probe sequence in closed form, "the normative meaning of the source's steps" (41_probe_sequence.md
R65), and the hash requests of a command (60_exceptions.md R99). The meanings do not use these; statements do. -/

namespace Sys2Proof.Machine

/-- `h_i`: `bswap64(base)` for probe 0, `hash64(le64((base + i) mod 2^64))` for every later one (41_probe_sequence.md R65). -/
def probeValue (c : Chip) (payload : Bytes) : Nat → Word
  | 0 => bswap64 (c.hash64 payload)
  | i + 1 => c.hash64 (le64 (c.hash64 payload + BitVec.ofNat 64 (i + 1)))

/-- `index_i = h_i mod TOTALBITS` (41_probe_sequence.md R65); `t` is TOTALBITS. -/
def probeIndex (c : Chip) (payload : Bytes) (t i : Nat) : Nat := (probeValue c payload i).toNat % t

/-- The `i`-th hash request of an ADD or a CONTAINS, counted from 0: the payload, then `le64(base + i)`, sums modulo 2^64
(60_exceptions.md R99). -/
def hashRequest (c : Chip) (payload : Bytes) : Nat → Bytes
  | 0 => payload
  | i + 1 => le64 (c.hash64 payload + BitVec.ofNat 64 (i + 1))

/-- The first `n` hash requests of an ADD or a CONTAINS, in order (60_exceptions.md R99). -/
def hashRequestList (c : Chip) (payload : Bytes) (n : Nat) : List Bytes :=
  (List.range n).map (hashRequest c payload)

/-- The number of the first of `k` probes whose bit is clear, if any (42_filter_commands.md R76). -/
def firstMiss (c : Chip) (payload : Bytes) (t k : Nat) (m : Memory) : Option Nat :=
  (List.range k).find? (fun i => !m.bit (probeIndex c payload t i))

end Sys2Proof.Machine
end

