-- ==== Sys2Proof/Machine/Driver.lean ====
section
/-! DEFINITION. The host driver's pseudo-commands (43_host_pseudo.md R82 to R87): sequences of commands the host issues
through the command port. The engine never sees them (30_encoding.md R59). The driver here is the only issuer of frames
(log entry 15). -/

namespace Sys2Proof.Machine

/-- The host sends commands; it need not wait between them (43_host_pseudo.md R87). -/
def send (commands : List Instr) (s : State) : State := { s with offered := s.offered ++ commands.map encode }

/-- `n` steps of the engine, stopping at the first fault or refusal. -/
def run : Nat → State → Answer
  | 0, s => .next s
  | n + 1, s =>
    match step s with
    | .next t => run n t
    | .fault r => .fault r
    | .refused r => .refused r

/-- What the host has after waiting for responses: a result (none while the engine answers nothing, 60_exceptions.md R100,
or when a reset comes first, 70_reset_and_hazards.md R105) and the machine. -/
abbrev Asked (α : Type) := Host.Outcome (Option α × State) Fault Refusal

/-- The host goes on with a result it has; without one it waits. -/
def Asked.andThen {α β : Type} (a : Asked α) (k : α → State → Asked β) : Asked β :=
  match a with
  | .next (some r, t) => k r t
  | .next (none, t) => .next (none, t)
  | .fault r => .fault r
  | .refused r => .refused r

/-- How many commands have been issued since the last reset: those answered, the one the engine holds and those still on
the port. Responses leave in command order, so this is the index of the response to the next command issued
(43_host_pseudo.md R87, 30_encoding.md R52, 20_memory.md R43). -/
def State.issued (s : State) : Nat :=
  s.responses.length + (if s.outstanding.isSome then 1 else 0) + s.offered.length

/-- The host waits for the response numbered `index` while the engine makes at most `n` steps. A reset ends the wait: the
commands issued before it get no response and the count starts again (70_reset_and_hazards.md R104, R105; log entry 15). -/
def awaitResponse (index : Nat) : Nat → State → Asked Response
  | 0, s => .next (s.responses[index]?, s)
  | n + 1, s =>
    match nextEvent s, step s with
    | .reset _, .next t => .next (none, t)
    | _, .next t => awaitResponse index n t
    | _, .fault r => .fault r
    | _, .refused r => .refused r

/-- Issue one command, whatever is still unanswered, and wait for its own response, found by counting: the engine first
takes every frame offered before it (43_host_pseudo.md R87). -/
def ask (i : Instr) (s : State) : Asked Response := awaitResponse s.issued (s.offered.length + 1) (send [i] s)

/-- ADDALL's expansion (43_host_pseudo.md R82). -/
def addAll (items : List Bytes) : List Instr := items.map Instr.add

/-- CONTAINSALL: stops at the first false; the empty sequence is true (43_host_pseudo.md R83). -/
def containsAll : List Bytes → State → Asked Bool
  | [], s => .next (some true, s)
  | x :: xs, s => Asked.andThen (ask (.contains x) s) fun r t =>
      if r.value = 0 then .next (some false, t) else containsAll xs t

/-- `n` RDWORDs from word index `j` on (43_host_pseudo.md R84). -/
def readWords : Nat → Nat → State → Asked (List Word)
  | 0, _, s => .next (some [], s)
  | n + 1, j, s => Asked.andThen (ask (.rdword (BitVec.ofNat 64 j)) s) fun r t =>
      Asked.andThen (readWords n (j + 1) t) fun ws u => .next (some (r.value :: ws), u)

/-- RAWBITS: CAPACITY, then every word (43_host_pseudo.md R84). -/
def rawBits (s : State) : Asked (List Word) :=
  Asked.andThen (ask .capacity s) fun r t => readWords r.value.toNat 0 t

/-- CREATE_EST with the estimator's outputs `m` (a number of BITS) and `k`: passed on as they are, so that `m` is taken
as a number of WORDS (43_host_pseudo.md R86, the mismatch kept on purpose). The estimator itself is host software and
out of scope (00_scope.md R4 (a)). -/
def createEst (m k : Word) : Instr := .create m k

end Sys2Proof.Machine
end

