-- ==== Sys2Proof/Safety.lean ====
section
/-! DEFINITION. What claims are stated in: the invariant of reachable states, the architectural triple, a filter
lifetime, and a safe run. -/

namespace Sys2Proof.Machine

/-- The invariant of 10_state.md R23: 1 <= WORDCOUNT <= W_MAX, PROBECOUNT >= 1, and BITS is the canonical form of exactly
WORDCOUNT words. -/
structure Inv (s : State) : Prop where
  wordCount_pos : 1 ≤ s.wordCount.toNat
  wordCount_le : s.wordCount.toNat ≤ Config.chip.wMax
  probeCount_pos : 1 ≤ s.probeCount.toNat
  bits_wf : s.bits.wf = true
  bits_below : s.bits.below s.wordCount.toNat = true

/-- Two states hold the same architectural triple (10_state.md R22). -/
def sameArch (s t : State) : Prop :=
  t.wordCount = s.wordCount ∧ t.probeCount = s.probeCount ∧ t.bits = s.bits

/-- `index_i` of a payload in a state (41_probe_sequence.md R65). -/
def indexAt (payload : Bytes) (s : State) (i : Nat) : Nat :=
  probeIndex Config.chip payload (s.wordCount.toNat * 64) i

/-- Every probed bit of a payload is set (42_filter_commands.md R76, "net effect"). -/
def allProbesSet (payload : Bytes) (s : State) : Prop :=
  ∀ i, i < s.probeCount.toNat → s.bits.bit (indexAt payload s i) = true

/-- The engine is free to take a frame, the hash unit meets its contract (60_exceptions.md R98, 70_reset_and_hazards.md
R107), and no reset is asserted from here on. -/
structure Ready (s : State) : Prop where
  free : s.outstanding = none
  answering : s.hashUnit = .answersAll
  noReset : s.resetLine = []

/-- The reset input is not asserted at the next step (70_reset_and_hazards.md R104). -/
def State.resetReleased (s : State) : Prop := ∀ offered rest, s.resetLine ≠ .asserted offered :: rest

/-- The frame decodes to a CREATE that would succeed: it ends a filter lifetime (42_filter_commands.md R81,
70_reset_and_hazards.md R109). -/
def endsLifetime (f : Frame) : Prop :=
  ∃ w k, decode f = .ok (.create w k) ∧ max w.toNat 1 ≤ Config.chip.wMax

/-- A run of `n` steps is safe when it meets no fault and no refusal. -/
def SafeRun (n : Nat) (s : State) : Prop := ∃ t, run n s = .next t

end Sys2Proof.Machine
end

