-- ==== Sys2Proof/WellFormed.lean ====
section
/-! DEFINITION. Well-formedness of commands and of frames.

Of a COMMAND there is nothing to check: ARG0 and ARG1 are full 64-bit words of which "any value is legal" (30_encoding.md
R49, R50), and the payload may have any finite length and any bytes (R56, 60_exceptions.md R88). Of a FRAME there are
two checks, in `Frame.check`: it selects a command (R51, R54), and the parts its format ignores are what the assembler
writes there (R55, R58: 0 in ignored operands, an empty ignored payload). A frame that fails the second check is legal
all the same and runs (R55); it is only not the frame `encode` writes. -/

namespace Sys2Proof

/-- Every command is well formed (R49, R50, R56; log entry 16). -/
def Instr.wellFormed : Instr → Bool
  | .create _ _ => true
  | .add _ => true
  | .contains _ => true
  | .capacity => true
  | .probecount => true
  | .rdword _ => true

/-- Which parts a format uses (the table of R49): ARG0, ARG1, the payload. -/
def Format.uses : Format → Bool × Bool × Bool
  | .C => (true, true, false)
  | .S => (false, false, true)
  | .N => (false, false, false)
  | .W => (true, false, false)

/-- What a frame can fail. -/
inductive FrameProblem where
  | illegal (e : DecodeError)
  | ignoredArg0 | ignoredArg1 | ignoredPayload
deriving DecidableEq, Repr

/-- The first check a frame fails, if any. -/
def Frame.check (f : Frame) : Option FrameProblem :=
  match decodeOpcode f.w0 with
  | .error e => some (.illegal e)
  | .ok o =>
    if !o.format.uses.1 && f.arg0 != 0 then some .ignoredArg0
    else if !o.format.uses.2.1 && f.arg1 != 0 then some .ignoredArg1
    else if !o.format.uses.2.2 && !f.payload.isEmpty then some .ignoredPayload
    else none

/-- A frame as the assembler writes it (R55, R58). -/
def Frame.wellFormed (f : Frame) : Bool := f.check.isNone

end Sys2Proof
end

