-- ==== Sys2Proof/Certificates/Slice0/Obligations.lean ====
section
/-! DEFINITION. The statements for the provers. Each docstring names the rule of spec/ it formalises.

Throughout, `exec` and `step` run on `Config.chip`, whose W_MAX and hash64 are opaque: a statement holds for every value
of the two parameters (00_scope.md R5). No statement rests on a free value (`Config.freeWord`) or on a value of a working
register at reset. -/

open Sys2Proof Sys2Proof.Machine

/-! ### Reset -/

/-- 10_state.md R28: the state after reset, and that `CREATE 0, 0` leaves the same architectural state from any state. -/
def Obligations.ResetLeavesTheOneWordFilter : Prop :=
  State.reset.wordCount = 1 ∧ State.reset.probeCount = 1 ∧ State.reset.bits.read 0 = 0 ∧ State.reset.totalBits = 64 ∧
  ∀ s : State, ∃ t, exec (.create 0 0) s = .next t ∧ sameArch State.reset t

/-- 70_reset_and_hazards.md R104, R105: asserting reset, whatever the engine was doing (a command waiting for the hash unit
included), leaves the reset state, no command held, no hash request outstanding, and the count of responses at 0. THE
MODEL'S CHOICE, no rule's: what is offered afterwards is the reset input's argument and `t.resetLine = rest` (log entry
10), the record of hash requests starts again, `t.hashRequests = []` (log entries 7, 10), and the hash unit stays as it
was, `t.hashUnit = s.hashUnit` (log entry 9). -/
def Obligations.ResetInputReturnsToTheResetState : Prop :=
  ∀ (s : State) (offered : List Frame) (rest : List ResetInput),
    s.resetLine = .asserted offered :: rest →
    ∃ t, step s = .next t ∧ sameArch State.reset t ∧ t.outstanding = none ∧ t.responses = [] ∧ t.hashRequests = [] ∧
      t.offered = offered ∧ t.resetLine = rest ∧ t.hashUnit = s.hashUnit

/-! ### The commands -/

/-- 42_filter_commands.md R74: CREATE clamps both operands to at least 1; above W_MAX it answers ERR_CAPACITY and changes
nothing else; otherwise it sets both counts, clears every word of the new store, answers (OK, 0) and changes nothing
else. -/
def Obligations.CreateMakesAZeroedFilterOrAnswersCapacity : Prop :=
  ∀ (a k : Word) (s : State),
    (max a.toNat 1 ≤ Config.chip.wMax →
      ∃ t, exec (.create a k) s = .next t ∧
        t.wordCount.toNat = max a.toNat 1 ∧ t.probeCount.toNat = max k.toNat 1 ∧
        (∀ w, w < max a.toNat 1 → t.bits.read w = 0) ∧
        t = { s with
          wordCount := t.wordCount, probeCount := t.probeCount, bits := t.bits, responses := s.responses ++ [⟨.ok, 0⟩] }) ∧
    (Config.chip.wMax < max a.toNat 1 →
      exec (.create a k) s = .next { s with responses := s.responses ++ [⟨.errCapacity, 0⟩] })

/-- 42_filter_commands.md R75: ADD sets bit `index_i` for every probe `i`, leaves every other bit and every word without a
probed bit, makes PROBECOUNT hash requests in order (the payload's alone if PROBECOUNT were 0), answers (OK, 0), leaves
WORDCOUNT, PROBECOUNT and HIT. The working registers it writes are unspecified afterwards (10_state.md R18). -/
def Obligations.AddSetsExactlyTheProbedBits : Prop :=
  ∀ (payload : Bytes) (s : State), 1 ≤ s.wordCount.toNat → s.hashUnit = .answersAll →
    ∃ t, exec (.add payload) s = .next t ∧
      t.responses = s.responses ++ [⟨.ok, 0⟩] ∧
      (∀ x, t.bits.bit x = true ↔
        s.bits.bit x = true ∨ ∃ i, i < s.probeCount.toNat ∧ x = indexAt payload s i) ∧
      (∀ w, (∀ i, i < s.probeCount.toNat → indexAt payload s i / 64 ≠ w) → t.bits.read w = s.bits.read w) ∧
      t.hashRequests = s.hashRequests ++ hashRequestList Config.chip payload (max s.probeCount.toNat 1) ∧
      t.work.hit = s.work.hit ∧
      t = { s with
        bits := t.bits, work := t.work, outstanding := none, responses := t.responses, hashRequests := t.hashRequests,
        freeUsed := t.freeUsed }

/-- 42_filter_commands.md R76: CONTAINS answers (OK, 1) after all PROBECOUNT requests when every probed bit is set, and
(OK, 0) after `j + 1` requests when the first clear bit is that of probe `j`. It changes no architectural state. The
working registers, HIT among them, are unspecified afterwards (10_state.md R18, R19). -/
def Obligations.ContainsAnswersWhetherEveryProbedBitIsSet : Prop :=
  ∀ (payload : Bytes) (s : State), 1 ≤ s.wordCount.toNat → s.hashUnit = .answersAll →
    ∃ t v n, exec (.contains payload) s = .next t ∧
      t.responses = s.responses ++ [⟨.ok, v⟩] ∧
      t.hashRequests = s.hashRequests ++ hashRequestList Config.chip payload n ∧
      (allProbesSet payload s → v = 1 ∧ n = max s.probeCount.toNat 1) ∧
      (∀ j, j < s.probeCount.toNat → s.bits.bit (indexAt payload s j) = false →
        (∀ i, i < j → s.bits.bit (indexAt payload s i) = true) → v = 0 ∧ n = j + 1) ∧
      t = { s with
        work := t.work, outstanding := none, responses := t.responses, hashRequests := t.hashRequests,
        freeUsed := t.freeUsed }

/-- 42_filter_commands.md R79: CAPACITY answers WORDCOUNT verbatim and changes nothing else. -/
def Obligations.CapacityAnswersWordCount : Prop :=
  ∀ s : State, exec .capacity s = .next { s with responses := s.responses ++ [⟨.ok, s.wordCount⟩] }

/-- 42_filter_commands.md R80: the PROBECOUNT command answers the register PROBECOUNT and changes nothing else. -/
def Obligations.ProbeCountCommandAnswersTheRegister : Prop :=
  ∀ s : State, exec .probecount s = .next { s with responses := s.responses ++ [⟨.ok, s.probeCount⟩] }

/-- 40_bitstore.md R63: RDWORD answers the word below WORDCOUNT and ERR_RANGE from WORDCOUNT upward; nothing else changes. -/
def Obligations.RdwordReadsAWordOrAnswersRange : Prop :=
  ∀ (index : Word) (s : State),
    (index.toNat < s.wordCount.toNat →
      exec (.rdword index) s = .next { s with responses := s.responses ++ [⟨.ok, s.bits.read index.toNat⟩] }) ∧
    (s.wordCount.toNat ≤ index.toNat →
      exec (.rdword index) s = .next { s with responses := s.responses ++ [⟨.errRange, 0⟩] })

/-- The model's own stop (log entry 11): ADD and CONTAINS stop with `zeroModulus` when WORDCOUNT is 0, which R23 rules out,
and only then; CREATE, CAPACITY, the PROBECOUNT command and RDWORD answer a next state in every state, that one included. -/
def Obligations.OnlyAZeroWordCountStopsACommand : Prop :=
  (∀ (payload : Bytes) (s : State), s.wordCount = 0 →
    exec (.add payload) s = .fault .zeroModulus ∧ exec (.contains payload) s = .fault .zeroModulus) ∧
  (∀ (i : Instr) (s : State), s.wordCount ≠ 0 → ∃ t, exec i s = .next t) ∧
  (∀ (a k index : Word) (s : State),
    (∃ t, exec (.create a k) s = .next t) ∧ (∃ t, exec .capacity s = .next t) ∧
    (∃ t, exec .probecount s = .next t) ∧ ∃ t, exec (.rdword index) s = .next t)

/-! ### The micro-operations -/

/-- 40_bitstore.md R61: SETBIT writes one word, with one more bit, and BUCKET and BITOFF; nothing else. -/
def Obligations.SetBitWritesOneWord : Prop :=
  ∀ (s : State) (x : Fin s.totalBits), s.wordCount.toNat ≤ Config.chip.wMax →
    (setBit x s).bits.read (x.val / 64) = s.bits.read (x.val / 64) ||| ((1 : Word) <<< (x.val % 64)) ∧
    (∀ w, w ≠ x.val / 64 → (setBit x s).bits.read w = s.bits.read w) ∧
    (setBit x s).work.bucket.toNat = x.val / 64 ∧ (setBit x s).work.bitoff.toNat = x.val % 64 ∧
    setBit x s = { s with
      bits := (setBit x s).bits
      work := { s.work with bucket := (setBit x s).work.bucket, bitoff := (setBit x s).work.bitoff } }

/-- 40_bitstore.md R62: TESTBIT answers whether bit `index % 64` of word `index / 64` is 1, and writes only BUCKET and
BITOFF. -/
def Obligations.TestBitReadsOneBit : Prop :=
  ∀ (s : State) (x : Fin s.totalBits), s.wordCount.toNat ≤ Config.chip.wMax →
    ((testBit x s).1 = true ↔ (s.bits.read (x.val / 64) >>> (x.val % 64)) &&& 1 = 1) ∧
    (testBit x s).2.work.bucket.toNat = x.val / 64 ∧ (testBit x s).2.work.bitoff.toNat = x.val % 64 ∧
    (testBit x s).2 = { s with work :=
      { s.work with bucket := (testBit x s).2.work.bucket, bitoff := (testBit x s).2.work.bitoff } }

/-- 40_bitstore.md R64 (a) to (f): the laws of the store. Equality of stores is equality of the canonical form. -/
def Obligations.TheStoreObeysItsLaws : Prop :=
  ∀ (s : State) (x y : Fin s.totalBits),
    (testBit x (setBit x s)).1 = true ∧
    (y ≠ x → (testBit y (setBit x s)).1 = (testBit y s).1) ∧
    (s.bits.wf = true → (setBit x (setBit x s)).bits = (setBit x s).bits) ∧
    (s.bits.wf = true → (setBit y (setBit x s)).bits = (setBit x (setBit y s)).bits) ∧
    ((testBit y s).1 = true → (testBit y (setBit x s)).1 = true) ∧
    ∃ v, exec (.rdword (BitVec.ofNat 64 (x.val / 64))) s = .next { s with responses := s.responses ++ [⟨.ok, v⟩] } ∧
      ((testBit x s).1 = true ↔ v.getLsbD (x.val % 64) = true)

/-- 20_memory.md R31: a bit index below TOTALBITS is its word index times 64 plus its bit number, the word index is below
WORDCOUNT and the bit number at most 63; in bit-field terms they are index[63:6] and index[5:0]. 41_probe_sequence.md
R70: IDX is the remainder of H by TOTALBITS, which is at least 64; IDX is below it, and is H itself when H is below it. -/
def Obligations.TheIndexMapStaysInTheStore : Prop :=
  ∀ (s : State) (h : Word) (ht : 0 < s.totalBits),
    (∀ index, index < s.totalBits →
      index = bucketOf index * 64 + bitOffsetOf index ∧
      bucketOf index < s.wordCount.toNat ∧ bitOffsetOf index ≤ 63 ∧
      BitVec.ofNat 58 (bucketOf index) = (BitVec.ofNat 64 index).extractLsb' 6 58 ∧
      BitVec.ofNat 6 (bitOffsetOf index) = (BitVec.ofNat 64 index).extractLsb' 0 6) ∧
    64 ≤ s.totalBits ∧
    (bitIndex h ht).val = h.toNat % (s.wordCount.toNat * 64) ∧ (bitIndex h ht).val < s.totalBits ∧
    (h.toNat < s.totalBits → (bitIndex h ht).val = h.toNat)

/-- 00_scope.md R9: `le64` is the eight bytes least significant first, byte `j` of `bswap64 v` is byte `7 - j` of `v`;
42_filter_commands.md R78 (h): `bswap64` undoes itself. -/
def Obligations.BytePrimitivesOrderTheBytes : Prop :=
  ∀ v : Word,
    le64 v = (List.range 8).map (fun j => v.extractLsb' (8 * j) 8) ∧
    (∀ j, j < 8 → (bswap64 v).extractLsb' (8 * j) 8 = v.extractLsb' (8 * (7 - j)) 8) ∧
    bswap64 (bswap64 v) = v

/-! ### The probe sequence -/

/-- 41_probe_sequence.md R65, for every chip: PROBE_INIT and then `n` PROBE_STEPs (R71) derive exactly the first `n` indices
of the closed form; afterwards I = n, CTR = (BASE + n) mod 2^64 (R69) and H, IDX are the last probe's (R71); the requests
are the payload and then one for each of probes 1 to n - 1; nothing but the working registers and the hash port moves. -/
def Obligations.TheGeneratorFollowsTheClosedForm : Prop :=
  ∀ (c : Chip) (payload : Bytes) (s : State) (ht : 0 < s.totalBits) (n : Nat), n < 2 ^ 64 → s.hashUnit = .answersAll →
    ∃ indices t,
      (probeInit c payload s).andThen (fun _ s1 => probeSteps c ht n s1) = .done indices t ∧
      indices.map Fin.val = (List.range n).map (fun i => (probeValue c payload i).toNat % s.totalBits) ∧
      t.work.base = c.hash64 payload ∧ t.work.i = BitVec.ofNat 64 n ∧
      t.work.ctr = c.hash64 payload + BitVec.ofNat 64 n ∧
      (n ≠ 0 → t.work.h = probeValue c payload (n - 1) ∧
        t.work.idx.toNat = (probeValue c payload (n - 1)).toNat % s.totalBits) ∧
      t.hashRequests = s.hashRequests ++ hashRequestList c payload (max n 1) ∧
      t = { s with work := t.work, outstanding := none, hashRequests := t.hashRequests }

/-- 41_probe_sequence.md R72: the indices depend on the payload, WORDCOUNT and PROBECOUNT alone. Two states that agree on
those two, whatever their stores hold, have one list of indices: ADD sets exactly its bits in either, and CONTAINS tests
exactly them in either. -/
def Obligations.TheIndicesDoNotDependOnTheStore : Prop :=
  ∀ (payload : Bytes) (wordCount probeCount : Word), 1 ≤ wordCount.toNat →
    ∃ indices : List Nat, indices.length = probeCount.toNat ∧
      ∀ s : State, s.wordCount = wordCount → s.probeCount = probeCount → s.hashUnit = .answersAll →
        (∃ t, exec (.add payload) s = .next t ∧
          ∀ x, t.bits.bit x = true ↔ s.bits.bit x = true ∨ x ∈ indices) ∧
        (∃ t v, exec (.contains payload) s = .next t ∧ t.responses = s.responses ++ [⟨.ok, v⟩] ∧
          (v = 1 ↔ ∀ x ∈ indices, s.bits.bit x = true))

/-! ### Encodings -/

/-- 30_encoding.md R57: decoding, in full: which W0 selects which command, and where each operand comes from. -/
def Obligations.DecodeFollowsTheOpcodeMap : Prop :=
  ∀ (d : BitVec 192) (payload : Bytes) (i : Instr),
    decode ⟨d, payload⟩ = .ok i ↔
      (d.extractLsb' 0 64 = 1 ∧ i = .create (d.extractLsb' 64 64) (d.extractLsb' 128 64)) ∨
      (d.extractLsb' 0 64 = 2 ∧ i = .add payload) ∨
      (d.extractLsb' 0 64 = 3 ∧ i = .contains payload) ∨
      (d.extractLsb' 0 64 = 4 ∧ i = .capacity) ∨
      (d.extractLsb' 0 64 = 5 ∧ i = .probecount) ∨
      (d.extractLsb' 0 64 = 6 ∧ i = .rdword (d.extractLsb' 64 64))

/-- 30_encoding.md R57, R58: decoding the frame a command assembles to gives the command back, with every operand at every
value, and the frame is well formed. -/
def Obligations.DecodingAnEncodedCommandGivesItBack : Prop :=
  ∀ i : Instr, i.wellFormed = true → decode (encode i) = .ok i ∧ (encode i).wellFormed = true

/-- 30_encoding.md R55, R58, the other direction: a frame with 0 in its ignored operands and no ignored payload is the frame
its command assembles to. -/
def Obligations.EncodingADecodedFrameGivesItBack : Prop :=
  ∀ f : Frame, f.wellFormed = true → ∃ i, decode f = .ok i ∧ encode i = f

/-- 30_encoding.md R55: two frames of one command that differ only in parts the format ignores act alike in every state. -/
def Obligations.IgnoredPartsHaveNoEffect : Prop :=
  ∀ (f g : Frame) (s : State), f.w0 = g.w0 →
    (f.w0 = 1 → f.arg0 = g.arg0 ∧ f.arg1 = g.arg1) →
    (f.w0 = 2 ∨ f.w0 = 3 → f.payload = g.payload) →
    (f.w0 = 6 → f.arg0 = g.arg0) →
    accept f s = accept g s

/-- 95_test_vectors.md section 2.4, from the encodings of 30_encoding.md R48, R51: words written out decode to the commands
they stand for, or to nothing. -/
def Obligations.WordsWrittenOutDecode : Prop :=
  decode ⟨0x000000000000000300000000000000020000000000000001, []⟩ = .ok (.create 2 3) ∧
  decode ⟨0x000000000000567800000000000012340000000000000002, [0x61]⟩ = .ok (.add [0x61]) ∧
  decode ⟨0x000000000000000000000000000000000000000000000003, []⟩ = .ok (.contains []) ∧
  decode ⟨0x000000000000000900000000000000090000000000000004, [0xFF]⟩ = .ok .capacity ∧
  decode ⟨0x000000000000000000000000000000000000000000000005, []⟩ = .ok .probecount ∧
  decode ⟨0x000000000000000700000000000000010000000000000006, []⟩ = .ok (.rdword 1) ∧
  decode ⟨0x000000000000000000000000000000000000000000000000, []⟩ = .error (.unassignedOpcode 0x00) ∧
  decode ⟨0x000000000000000000000000000000000000000000000102, [0x61, 0x62]⟩ = .error (.reservedFieldNonzero 1)

/-- 30_encoding.md R52: R0 holds STATUS in its low byte and zeros above, R1 is VALUE; and the four status codes of R53. -/
def Obligations.ResponseFramesCarryStatusAndValue : Prop :=
  (∀ r : Response, r.r0.extractLsb' 0 8 = r.status.code ∧ r.r0.extractLsb' 8 56 = 0 ∧ r.r1 = r.value) ∧
  Status.ok.code = 0 ∧ Status.errIllegal.code = 1 ∧ Status.errCapacity.code = 2 ∧ Status.errRange.code = 3

/-! ### The step -/

/-- 20_memory.md R43: with the engine free and no reset, the frame at the front of the port is decoded and run as `exec` runs
its command; around that the step only takes the frame off the port and moves the reset input on. -/
def Obligations.AStepRunsTheDecodedCommand : Prop :=
  ∀ (s : State) (f : Frame) (rest : List Frame) (i : Instr),
    s.outstanding = none → s.resetReleased → s.offered = f :: rest → decode f = .ok i → i.wellFormed = true →
    step s = exec i { s with offered := rest, resetLine := s.resetLine.tail }

/-- 30_encoding.md R54, 60_exceptions.md R89: a frame whose W0 is not 1 to 6 answers (ERR_ILLEGAL, 0), is consumed with its
payload, and changes nothing else: no state, no hash request. -/
def Obligations.AnIllegalFrameAnswersIllegal : Prop :=
  ∀ (s : State) (f : Frame) (rest : List Frame),
    s.outstanding = none → s.resetReleased → s.offered = f :: rest →
    f.w0 ≠ 1 → f.w0 ≠ 2 → f.w0 ≠ 3 → f.w0 ≠ 4 → f.w0 ≠ 5 → f.w0 ≠ 6 →
    step s = .next { s with
      offered := rest, resetLine := s.resetLine.tail, responses := s.responses ++ [⟨.errIllegal, 0⟩] }

/-- 60_exceptions.md R102: holding no command and offered none, the engine waits for a frame and keeps all its architectural
state. THE MODEL'S CHOICE, no rule's: the working registers stay as well, which R18 of 10_state.md leaves unspecified
between commands (log entry 4), and the step is one of waiting (log entry 8). -/
def Obligations.AnIdleEngineKeepsItsState : Prop :=
  ∀ s : State, s.outstanding = none → s.resetReleased → s.offered = [] →
    step s = .next { s with resetLine := s.resetLine.tail }

/-- 60_exceptions.md R100: while a hash request is unanswered and no reset comes, the engine sends no response, takes no
later command and keeps its state. -/
def Obligations.AnUnansweredRequestHoldsTheEngine : Prop :=
  ∀ (s : State) (request : Bytes), s.outstanding = some request → s.resetReleased →
    step s = .next { s with resetLine := s.resetLine.tail }

/-- 60_exceptions.md R100: an ADD whose request number `q` (counted from 0) is never answered leaves that request
outstanding, sends no response, and has set the bits of the `q` probes already made and no others. -/
def Obligations.ASilentHashUnitStopsAnAddMidway : Prop :=
  ∀ (payload : Bytes) (s : State) (q : Nat), 1 ≤ s.wordCount.toNat → s.hashUnit = .answersOnly q →
    q < s.probeCount.toNat →
    ∃ t, exec (.add payload) s = .next t ∧
      t.outstanding = some (hashRequest Config.chip payload q) ∧ t.responses = s.responses ∧
      t.hashRequests = s.hashRequests ++ hashRequestList Config.chip payload (q + 1) ∧
      t.wordCount = s.wordCount ∧ t.probeCount = s.probeCount ∧
      (∀ x, t.bits.bit x = true ↔ s.bits.bit x = true ∨ ∃ i, i < q ∧ x = indexAt payload s i)

/-- 60_exceptions.md R100: a CONTAINS whose request number `q` (counted from 0) is never answered, the probes before it all
having met set bits, leaves that request outstanding, sends no response and changes no architectural state. -/
def Obligations.ASilentHashUnitStopsAContainsMidway : Prop :=
  ∀ (payload : Bytes) (s : State) (q : Nat), 1 ≤ s.wordCount.toNat → s.hashUnit = .answersOnly q →
    q < s.probeCount.toNat → (∀ i, i < q → s.bits.bit (indexAt payload s i) = true) →
    ∃ t, exec (.contains payload) s = .next t ∧
      t.outstanding = some (hashRequest Config.chip payload q) ∧ t.responses = s.responses ∧
      t.hashRequests = s.hashRequests ++ hashRequestList Config.chip payload (q + 1) ∧ sameArch s t

/-- 30_encoding.md R52, 60_exceptions.md R93: every frame the free engine takes, legal or not, gets exactly one response, and
its frame leaves the port. -/
def Obligations.EveryFrameGetsExactlyOneResponse : Prop :=
  ∀ (s : State) (f : Frame) (rest : List Frame), Inv s → s.outstanding = none → s.hashUnit = .answersAll →
    s.resetReleased → s.offered = f :: rest →
    ∃ t r, step s = .next t ∧ t.responses = s.responses ++ [r] ∧ t.offered = rest ∧ t.outstanding = none ∧
      t.hashUnit = .answersAll

/-- 60_exceptions.md R92, R88: a command that answers an error has changed nothing but the response port: no architectural
state, no hash request, and VALUE is 0. -/
def Obligations.ErrorResponsesChangeNothing : Prop :=
  ∀ (f : Frame) (s t : State) (r : Response), accept f s = .next t → t.responses = s.responses ++ [r] →
    r.status ≠ .ok → r.value = 0 ∧ t = { s with responses := s.responses ++ [r] }

/-! ### Invariants and whole-machine rules -/

/-- 10_state.md R23: "Reset establishes them". -/
def Obligations.TheInvariantHoldsAtReset : Prop := Inv State.reset

/-- 10_state.md R23: every step, from any state with the invariant (reset, any frame, any hash unit), keeps 1 <= WORDCOUNT <=
W_MAX, PROBECOUNT >= 1 and the canonical form of exactly WORDCOUNT words. -/
def Obligations.EveryStepKeepsTheInvariant : Prop :=
  ∀ s t : State, Inv s → step s = .next t → Inv t

/-- 42_filter_commands.md R81 (f), R78: no run from a state with the invariant meets a fault or a refusal. -/
def Obligations.EveryRunIsSafe : Prop := ∀ (n : Nat) (s : State), Inv s → SafeRun n s

/-- 10_state.md R24: with no reset and no successful CREATE in between, WORDCOUNT and PROBECOUNT stay and no bit of any word
is ever cleared. -/
def Obligations.BitsOnlyRiseWithinALifetime : Prop :=
  ∀ (n : Nat) (s t : State), s.resetLine = [] → (∀ f ∈ s.offered, ¬ endsLifetime f) → run n s = .next t →
    t.wordCount = s.wordCount ∧ t.probeCount = s.probeCount ∧
    ∀ w, s.bits.read w &&& t.bits.read w = s.bits.read w

/-- 42_filter_commands.md R81 (a): no false negatives. After `ADD s`, whatever frames of the same lifetime the engine takes in
any number of steps, `CONTAINS s` answers (OK, 1). -/
def Obligations.NoFalseNegatives : Prop :=
  ∀ (payload : Bytes) (n : Nat) (s t u : State), Inv s → Ready s →
    exec (.add payload) s = .next t → (∀ f ∈ t.offered, ¬ endsLifetime f) → run n t = .next u →
    ∃ v, exec (.contains payload) u = .next v ∧ v.responses = u.responses ++ [⟨.ok, 1⟩]

/-- 42_filter_commands.md R81 (b): once CONTAINS answers 1 it answers 1 for the rest of the lifetime. -/
def Obligations.APositiveAnswerStaysPositive : Prop :=
  ∀ (payload : Bytes) (n : Nat) (s t u : State), Inv s → Ready s →
    exec (.contains payload) s = .next t → t.responses = s.responses ++ [⟨.ok, 1⟩] →
    (∀ f ∈ t.offered, ¬ endsLifetime f) → run n t = .next u →
    ∃ v, exec (.contains payload) u = .next v ∧ v.responses = u.responses ++ [⟨.ok, 1⟩]

/-- 42_filter_commands.md R81 (c): `ADD s; ADD s` leaves the architectural state of `ADD s`. -/
def Obligations.AddingTwiceIsAddingOnce : Prop :=
  ∀ (payload : Bytes) (s : State), Inv s → s.hashUnit = .answersAll →
    ∃ t u, exec (.add payload) s = .next t ∧ exec (.add payload) t = .next u ∧ sameArch t u

/-- 42_filter_commands.md R81 (d): `ADD s; ADD t` leaves the architectural state of `ADD t; ADD s`. -/
def Obligations.AddsCommute : Prop :=
  ∀ (p q : Bytes) (s : State), Inv s → s.hashUnit = .answersAll →
    ∃ t1 u1 t2 u2, exec (.add p) s = .next t1 ∧ exec (.add q) t1 = .next u1 ∧
      exec (.add q) s = .next t2 ∧ exec (.add p) t2 = .next u2 ∧ sameArch u1 u2

/-- 42_filter_commands.md R81 (e): CONTAINS, CAPACITY, the PROBECOUNT command and RDWORD leave the architectural state, and
repeating one gives the same response. -/
def Obligations.QueriesArePure : Prop :=
  ∀ (i : Instr) (s : State),
    ((∃ p, i = .contains p) ∨ i = .capacity ∨ i = .probecount ∨ ∃ x, i = .rdword x) →
    1 ≤ s.wordCount.toNat → s.hashUnit = .answersAll →
    ∃ t u r, exec i s = .next t ∧ sameArch s t ∧ t.responses = s.responses ++ [r] ∧
      exec i t = .next u ∧ u.responses = t.responses ++ [r]

/-- 10_state.md R22, R18: the response to a command, its hash requests and the architectural state it leaves are functions of
the architectural triple alone: no working register's old value, no earlier response or request, no free value matters. -/
def Obligations.OnlyTheArchitecturalTripleMatters : Prop :=
  ∀ (i : Instr) (s1 s2 : State), sameArch s1 s2 → 1 ≤ s1.wordCount.toNat → s1.hashUnit = .answersAll →
    s2.hashUnit = .answersAll →
    ∃ t1 t2 r requests, exec i s1 = .next t1 ∧ exec i s2 = .next t2 ∧ sameArch t1 t2 ∧
      t1.responses = s1.responses ++ [r] ∧ t2.responses = s2.responses ++ [r] ∧
      t1.hashRequests = s1.hashRequests ++ requests ∧ t2.hashRequests = s2.hashRequests ++ requests

/-! ### The host's pseudo-commands, end to end through the port -/

/-- 43_host_pseudo.md R82: ADDALL, sent without waiting behind whatever is still offered, takes one step an item after the
earlier frames' steps; `u` is the machine after the earlier frames alone. Every response is (OK, 0), and the store has
gained exactly the probed bits of all the items. -/
def Obligations.AddAllAddsEveryItem : Prop :=
  ∀ (items : List Bytes) (s : State), Inv s → Ready s →
    ∃ u t, run s.offered.length s = .next u ∧
      run (s.offered.length + items.length) (send (addAll items) s) = .next t ∧
      t.responses = u.responses ++ List.replicate items.length ⟨.ok, 0⟩ ∧
      t.wordCount = u.wordCount ∧ t.probeCount = u.probeCount ∧ t.offered = [] ∧
      (∀ x, t.bits.bit x = true ↔ u.bits.bit x = true ∨
        ∃ p ∈ items, ∃ i, i < u.probeCount.toNat ∧ x = indexAt p u i)

/-- 43_host_pseudo.md R83, R87: CONTAINSALL, issued behind whatever is still offered, answers true exactly when every item's
CONTAINS does in the machine `u` that the earlier frames leave, stops after the first false, and changes no
architectural state of `u`. The empty sequence issues no command and takes no step. -/
def Obligations.ContainsAllIsTheConjunction : Prop :=
  ∀ (items : List Bytes) (s : State), Inv s → Ready s →
    ∃ u t b, run s.offered.length s = .next u ∧ containsAll items s = .next (some b, t) ∧
      (items = [] → t = s) ∧ (items ≠ [] → sameArch u t) ∧
      (b = true ↔ ∀ p ∈ items, allProbesSet p u) ∧
      (items ≠ [] → b = true → t.responses.length = u.responses.length + items.length) ∧
      (b = false → ∃ before p after, items = before ++ p :: after ∧ (∀ q ∈ before, allProbesSet q u) ∧
        ¬ allProbesSet p u ∧ t.responses.length = u.responses.length + (before.length + 1))

/-- 43_host_pseudo.md R84, R87: RAWBITS, issued behind whatever is still offered, answers BITS[0], ..., BITS[WORDCOUNT-1] of
the machine `u` that the earlier frames leave, in index order; its WORDCOUNT + 1 responses are all that it adds to `u`. -/
def Obligations.RawBitsReadsTheWholeStore : Prop :=
  ∀ s : State, Inv s → Ready s →
    ∃ u, run s.offered.length s = .next u ∧
      rawBits s = .next (some ((List.range u.wordCount.toNat).map u.bits.read), { u with
        responses := u.responses ++ ⟨.ok, u.wordCount⟩ ::
          (List.range u.wordCount.toNat).map (fun j => ⟨.ok, u.bits.read j⟩) })

/-- 43_host_pseudo.md R86, 70_reset_and_hazards.md R110: CREATE_EST passes the estimator's bit count as a word count: CAPACITY
then answers `m` (clamped), and the store has 64 times as many bits. -/
def Obligations.CreateEstTakesBitsAsWords : Prop :=
  ∀ (m k : Word) (s : State), max m.toNat 1 ≤ Config.chip.wMax →
    ∃ t u v, exec (createEst m k) s = .next t ∧ t.totalBits = 64 * max m.toNat 1 ∧
      exec .capacity t = .next u ∧ u.responses = t.responses ++ [⟨.ok, v⟩] ∧ v.toNat = max m.toNat 1

/-! ### The host's count of responses, and frames that wait -/

/-- 43_host_pseudo.md R87: a command issued behind any number of unanswered ones is matched with its own response, by
counting: after the steps of the earlier frames, which leave `u` with one response each and nothing offered, the command
runs on `u` and its one response is what the host gets. While the engine holds a command whose hash request is never
answered (60_exceptions.md R100), the host gets nothing. -/
def Obligations.AskGetsItsOwnResponse : Prop :=
  ∀ (i : Instr) (s : State),
    (Inv s → Ready s →
      ∃ u v r, run s.offered.length s = .next u ∧ u.offered = [] ∧
        u.responses.length = s.responses.length + s.offered.length ∧
        exec i u = .next v ∧ v.responses = u.responses ++ [r] ∧ ask i s = .next (some r, v)) ∧
    (s.outstanding ≠ none → s.resetLine = [] → ask i s = .next (none, send [i] s))

/-- 10_state.md R29: "A frame that has not yet been accepted has had no effect": commands sent behind `n` or more offered
frames change nothing in `n` steps but that they wait on the port, whatever the hash unit does. -/
def Obligations.FramesNotYetAcceptedHaveNoEffect : Prop :=
  ∀ (commands : List Instr) (n : Nat) (s t : State), s.resetLine = [] → n ≤ s.offered.length → run n s = .next t →
    run n (send commands s) = .next (send commands t)

/-- The model's own form of the store (log entries 1, 2): after a CREATE that fits nothing is listed, so an index from
WORDCOUNT upward, where no word is held, reads 0 too. No rule says what a physical word there holds. -/
def Obligations.ACreatedStoreListsNothing : Prop :=
  ∀ (a k : Word) (s : State), max a.toNat 1 ≤ Config.chip.wMax →
    ∃ t, exec (.create a k) s = .next t ∧ t.bits = [] ∧ ∀ w, t.bits.read w = 0
end

