-- ==== Sys2Proof/Laws/Operands.lean ====
section
/-! SUPPORT. Bytes, the byte reversal and the clamp. -/

namespace Sys2Proof.Machine

theorem getLsbD_byteOf (v : Word) (j b : Nat) (hb : b < 8) : (byteOf v j).getLsbD b = v.getLsbD (8 * j + b) := by
  simp [byteOf, hb]

/-- Byte `j` of the reversal is byte `7 - j`. -/
theorem byteOf_bswap64 (v : Word) : ∀ j, j < 8 → byteOf (bswap64 v) j = byteOf v (7 - j) := by
  intro j hj
  apply BitVec.eq_of_getLsbD_eq
  intro b hb
  rw [getLsbD_byteOf _ _ _ hb]
  show BitVec.getLsbD (w := 8 + 8 + 8 + 8 + 8 + 8 + 8 + 8) (byteOf v 0 ++ byteOf v 1 ++ byteOf v 2 ++ byteOf v 3 ++
    byteOf v 4 ++ byteOf v 5 ++ byteOf v 6 ++ byteOf v 7) (8 * j + b) = _
  simp only [BitVec.getLsbD_append]
  have hcases : j = 0 ∨ j = 1 ∨ j = 2 ∨ j = 3 ∨ j = 4 ∨ j = 5 ∨ j = 6 ∨ j = 7 := by omega
  rcases hcases with rfl | rfl | rfl | rfl | rfl | rfl | rfl | rfl <;>
    (repeat' split) <;> first | omega | (congr 1; omega)

/-- Two words with the same bytes are equal. -/
theorem word_ext_of_byteOf {v w : Word} (h : ∀ j, j < 8 → byteOf v j = byteOf w j) : v = w := by
  apply BitVec.eq_of_getLsbD_eq
  intro k hk
  have := congrArg (fun b : Byte => b.getLsbD (k % 8)) (h (k / 8) (by omega))
  rw [getLsbD_byteOf _ _ _ (by omega), getLsbD_byteOf _ _ _ (by omega)] at this
  rwa [show 8 * (k / 8) + k % 8 = k by omega] at this

theorem bswap64_bswap64 (v : Word) : bswap64 (bswap64 v) = v := by
  apply word_ext_of_byteOf
  intro j hj
  rw [byteOf_bswap64 _ _ hj, byteOf_bswap64 _ _ (by omega), show 7 - (7 - j) = j by omega]

theorem toNat_clamp (x : Word) : (clamp x).toNat = max x.toNat 1 := by
  unfold clamp maxWord
  have h1 : (1 : Word).toNat = 1 := rfl
  split_ifs with h
  · rw [h1] at h ⊢; omega
  · rw [h1] at h; omega

end Sys2Proof.Machine
end

