-- ==== Sys2Proof/Laws/Memory.lean ====
section
/-! SUPPORT. What the store's operations do: read after write, the canonical form, single bits. -/

namespace Sys2Proof.Machine

/-! ### Words -/

theorem Memory.read_nil (w : Nat) : Memory.read [] w = 0 := rfl

theorem Memory.read_write_other (m : Memory) {w x : Nat} (v : Word) (h : x ≠ w) :
    (m.write w v).read x = m.read x := by
  induction m with
  | nil =>
    simp only [Memory.write]
    split
    · rfl
    · simp [Memory.read, Ne.symm h]
  | cons c m ih =>
    obtain ⟨a, u⟩ := c
    simp only [Memory.write]
    split_ifs with h1 h2 h3 h4
    · rfl
    · simp [Memory.read, Ne.symm h]
    · subst h3; simp [Memory.read, Ne.symm h]
    · subst h3; simp [Memory.read, Ne.symm h]
    · simp [Memory.read, ih]

theorem Memory.read_write_same (m : Memory) (w : Nat) {v : Word} (hv : v ≠ 0) :
    (m.write w v).read w = v := by
  induction m with
  | nil => rw [Memory.write, if_neg hv]; simp [Memory.read]
  | cons c m ih =>
    obtain ⟨a, u⟩ := c
    simp only [Memory.write]
    split_ifs with h1 h2
    · simp [Memory.read]
    · simp [Memory.read]
    · simp [Memory.read, Ne.symm h2, ih]

/-! ### The canonical form -/

theorem Memory.wf_cons {a : Nat} {v : Word} {m : Memory} :
    Memory.wf ((a, v) :: m) = true ↔ v ≠ 0 ∧ (∀ c ∈ m, a < c.1) ∧ m.wf = true := by
  simp [Memory.wf, and_assoc]

theorem Memory.below_cons {n a : Nat} {v : Word} {m : Memory} :
    Memory.below n ((a, v) :: m) = true ↔ a < n ∧ m.below n = true := by
  simp [Memory.below]

/-- A write adds no index but its own. -/
theorem Memory.mem_write {m : Memory} {w : Nat} {v : Word} {c : Nat × Word} (h : c ∈ m.write w v) :
    c = (w, v) ∨ c ∈ m := by
  induction m with
  | nil =>
    simp only [Memory.write] at h
    split at h
    · simp at h
    · exact .inl (by simpa using h)
  | cons d m ih =>
    obtain ⟨a, u⟩ := d
    simp only [Memory.write] at h
    split_ifs at h with h1 h2 h3 h4
    · exact .inr h
    · simpa using h
    · exact .inr (List.mem_cons_of_mem _ h)
    · rcases List.mem_cons.1 h with h | h
      · exact .inl h
      · exact .inr (List.mem_cons_of_mem _ h)
    · rcases List.mem_cons.1 h with h | h
      · exact .inr (by simp [h])
      · rcases ih h with h | h
        · exact .inl h
        · exact .inr (List.mem_cons_of_mem _ h)

/-- Every write keeps the canonical form. -/
theorem Memory.wf_write {m : Memory} (hm : m.wf = true) (w : Nat) (v : Word) : (m.write w v).wf = true := by
  induction m with
  | nil =>
    simp only [Memory.write]
    split
    · rfl
    · rename_i h
      exact Memory.wf_cons.2 ⟨h, by simp, rfl⟩
  | cons c m ih =>
    obtain ⟨a, u⟩ := c
    obtain ⟨hu, hlt, hwf⟩ := Memory.wf_cons.1 hm
    simp only [Memory.write]
    split_ifs with h1 h2 h3 h4
    · exact hm
    · refine Memory.wf_cons.2 ⟨h2, ?_, hm⟩
      intro d hd
      rcases List.mem_cons.1 hd with rfl | hd
      · exact h1
      · exact h1.trans (hlt d hd)
    · exact hwf
    · exact Memory.wf_cons.2 ⟨h4, by subst h3; exact hlt, hwf⟩
    · refine Memory.wf_cons.2 ⟨hu, ?_, ih hwf⟩
      intro d hd
      rcases Memory.mem_write hd with rfl | hd
      · show a < w; omega
      · exact hlt d hd

theorem Memory.below_write {m : Memory} {n w : Nat} (hm : m.below n = true) (hw : w < n) (v : Word) :
    (m.write w v).below n = true := by
  simp only [Memory.below, List.all_eq_true, decide_eq_true_eq] at hm ⊢
  intro c hc
  rcases Memory.mem_write hc with rfl | hc
  · exact hw
  · exact hm c hc

theorem Memory.read_of_lt_all {m : Memory} {w : Nat} (h : ∀ c ∈ m, w < c.1) : m.read w = 0 := by
  induction m with
  | nil => rfl
  | cons c m ih =>
    obtain ⟨a, u⟩ := c
    have ha : w < a := h (a, u) (by simp)
    simp [Memory.read, Nat.ne_of_gt ha, ih (fun d hd => h d (List.mem_cons_of_mem _ hd))]

/-- Canonical memories that read alike are equal: equal stores are equal data. -/
theorem Memory.ext_of_wf {m n : Memory} (hm : m.wf = true) (hn : n.wf = true)
    (h : ∀ w, m.read w = n.read w) : m = n := by
  induction m generalizing n with
  | nil =>
    cases n with
    | nil => rfl
    | cons d n =>
      obtain ⟨b, v⟩ := d
      have := h b
      simp [Memory.read] at this
      exact absurd this.symm (Memory.wf_cons.1 hn).1
  | cons c m ih =>
    obtain ⟨a, u⟩ := c
    obtain ⟨hu, hlt, hmw⟩ := Memory.wf_cons.1 hm
    cases n with
    | nil =>
      have := h a
      simp [Memory.read] at this
      exact absurd this hu
    | cons d n =>
      obtain ⟨b, v⟩ := d
      obtain ⟨hv, hlt', hnw⟩ := Memory.wf_cons.1 hn
      have hab : a = b := by
        rcases Nat.lt_trichotomy a b with hab | hab | hab
        · have := h a
          rw [Memory.read_of_lt_all (m := (b, v) :: n)] at this
          · simp [Memory.read] at this
            exact absurd this hu
          · intro d hd
            rcases List.mem_cons.1 hd with rfl | hd
            · exact hab
            · exact hab.trans (hlt' d hd)
        · exact hab
        · have := h b
          rw [Memory.read_of_lt_all (m := (a, u) :: m)] at this
          · simp [Memory.read] at this
            exact absurd this.symm hv
          · intro d hd
            rcases List.mem_cons.1 hd with rfl | hd
            · exact hab
            · exact hab.trans (hlt d hd)
      subst hab
      have huv : u = v := by simpa [Memory.read] using h a
      subst huv
      refine congrArg _ (ih hmw hnw fun w => ?_)
      by_cases hw : a = w
      · subst hw
        rw [Memory.read_of_lt_all hlt, Memory.read_of_lt_all hlt']
      · simpa [Memory.read, hw] using h w

/-! ### Single bits -/

theorem bitMask_ne_zero {b : Nat} (hb : b < 64) : bitMask b ≠ 0 := by
  intro h
  have := congrArg (fun x : Word => x.getLsbD b) h
  simp [bitMask, hb] at this

theorem getLsbD_bitMask {b j : Nat} (hj : j < 64) : (bitMask b).getLsbD j = decide (j = b) := by
  simp only [bitMask, BitVec.getLsbD_shiftLeft]
  by_cases h : j = b
  · subst h; simp [hj]
  · by_cases h2 : j < b
    · simp [h, h2]
    · simp only [hj, h2, h, decide_false, decide_true, Bool.not_false, Bool.true_and, Bool.and_true]
      simp; omega

theorem or_bitMask_ne_zero (v : Word) {b : Nat} (hb : b < 64) : v ||| bitMask b ≠ 0 := by
  intro h
  have := congrArg (fun x : Word => x.getLsbD b) h
  simp [getLsbD_bitMask hb] at this

/-- SETBIT's write, word by word. -/
theorem Memory.read_setBit (m : Memory) (x w : Nat) :
    (m.setBit x).read w = if w = bucketOf x then m.read w ||| bitMask (bitOffsetOf x) else m.read w := by
  have hb : bitOffsetOf x < 64 := Nat.mod_lt _ (by decide)
  unfold Memory.setBit
  split_ifs with h
  · subst h; exact Memory.read_write_same _ _ (or_bitMask_ne_zero _ hb)
  · exact Memory.read_write_other _ _ h

/-- SETBIT's write, bit by bit. -/
theorem Memory.bit_setBit (m : Memory) (x y : Nat) :
    (m.setBit x).bit y = (m.bit y || decide (y = x)) := by
  have hy : bitOffsetOf y < 64 := Nat.mod_lt _ (by decide)
  unfold Memory.bit
  rw [Memory.read_setBit]
  split_ifs with h
  · rw [BitVec.getLsbD_or, getLsbD_bitMask hy]
    congr 1
    simp only [bucketOf, bitOffsetOf] at h ⊢
    by_cases e : y % 64 = x % 64 <;> by_cases e' : y = x <;> (simp [e, e']; try omega)
  · have : y ≠ x := fun e => h (by rw [e])
    simp [this]

theorem Memory.wf_setBit {m : Memory} (hm : m.wf = true) (x : Nat) : (m.setBit x).wf = true :=
  Memory.wf_write hm _ _

theorem Memory.below_setBit {m : Memory} {n x : Nat} (hm : m.below n = true) (hx : x < n * 64) :
    (m.setBit x).below n = true :=
  Memory.below_write hm (by simp only [bucketOf]; omega) _

/-- Words are their bits. -/
theorem Memory.read_eq_of_bit {m n : Memory} (w : Nat)
    (h : ∀ j, j < 64 → m.bit (w * 64 + j) = n.bit (w * 64 + j)) : m.read w = n.read w := by
  apply BitVec.eq_of_getLsbD_eq
  intro j hj
  have := h j hj
  simpa [Memory.bit, bucketOf, bitOffsetOf, show (w * 64 + j) / 64 = w by omega,
    show (w * 64 + j) % 64 = j by omega] using this

/-- Canonical memories with the same bits are equal. -/
theorem Memory.ext_of_bit {m n : Memory} (hm : m.wf = true) (hn : n.wf = true)
    (h : ∀ x, m.bit x = n.bit x) : m = n :=
  Memory.ext_of_wf hm hn fun w => Memory.read_eq_of_bit w fun _ _ => h _

/-! ### Several bits -/

/-- SETBIT of each index in turn. -/
def Memory.setBits (m : Memory) (xs : List Nat) : Memory := xs.foldl Memory.setBit m

theorem Memory.setBits_cons (m : Memory) (x : Nat) (xs : List Nat) :
    m.setBits (x :: xs) = (m.setBit x).setBits xs := rfl

theorem Memory.bit_setBits (m : Memory) (xs : List Nat) (y : Nat) :
    (m.setBits xs).bit y = (m.bit y || decide (y ∈ xs)) := by
  induction xs generalizing m with
  | nil => simp [Memory.setBits]
  | cons x xs ih => simp [Memory.setBits_cons, ih, Memory.bit_setBit, Bool.or_assoc]

theorem Memory.wf_setBits {m : Memory} (hm : m.wf = true) (xs : List Nat) : (m.setBits xs).wf = true := by
  induction xs generalizing m with
  | nil => exact hm
  | cons x xs ih => exact ih (Memory.wf_setBit hm x)

theorem Memory.below_setBits {m : Memory} {n : Nat} (hm : m.below n = true) {xs : List Nat}
    (hx : ∀ x ∈ xs, x < n * 64) : (m.setBits xs).below n = true := by
  induction xs generalizing m with
  | nil => exact hm
  | cons x xs ih =>
    exact ih (Memory.below_setBit hm (hx x (by simp))) fun y hy => hx y (List.mem_cons_of_mem _ hy)

theorem Memory.read_setBits_other (m : Memory) {xs : List Nat} {w : Nat} (h : ∀ x ∈ xs, bucketOf x ≠ w) :
    (m.setBits xs).read w = m.read w := by
  induction xs generalizing m with
  | nil => rfl
  | cons x xs ih =>
    rw [Memory.setBits_cons, ih _ fun y hy => h y (List.mem_cons_of_mem _ hy), Memory.read_setBit,
      if_neg (Ne.symm (h x (by simp)))]

end Sys2Proof.Machine
end

