-- ==== Sys2Proof/Laws/State.lean ====
section
/-! SUPPORT. What each named update leaves in each field, so that no later proof unfolds a record update. -/

namespace Sys2Proof.Machine

variable (s : State)

section Respond
variable (st : Status) (v : Word)
@[simp] theorem respond_wordCount : (respond st v s).wordCount = s.wordCount := rfl
@[simp] theorem respond_probeCount : (respond st v s).probeCount = s.probeCount := rfl
@[simp] theorem respond_bits : (respond st v s).bits = s.bits := rfl
@[simp] theorem respond_work : (respond st v s).work = s.work := rfl
@[simp] theorem respond_outstanding : (respond st v s).outstanding = s.outstanding := rfl
@[simp] theorem respond_offered : (respond st v s).offered = s.offered := rfl
@[simp] theorem respond_responses : (respond st v s).responses = s.responses ++ [⟨st, v⟩] := rfl
@[simp] theorem respond_hashRequests : (respond st v s).hashRequests = s.hashRequests := rfl
@[simp] theorem respond_hashUnit : (respond st v s).hashUnit = s.hashUnit := rfl
@[simp] theorem respond_resetLine : (respond st v s).resetLine = s.resetLine := rfl
@[simp] theorem respond_freeUsed : (respond st v s).freeUsed = s.freeUsed := rfl
end Respond

/-- Taking an error is its response with VALUE 0 and nothing else. -/
theorem raise_eq (e : EngineError) : raise e s = respond e.status 0 s := rfl

section EndAdd
@[simp] theorem endAdd_wordCount : (endAdd s).wordCount = s.wordCount := rfl
@[simp] theorem endAdd_probeCount : (endAdd s).probeCount = s.probeCount := rfl
@[simp] theorem endAdd_bits : (endAdd s).bits = s.bits := rfl
@[simp] theorem endAdd_hit : (endAdd s).work.hit = s.work.hit := rfl
@[simp] theorem endAdd_outstanding : (endAdd s).outstanding = s.outstanding := rfl
@[simp] theorem endAdd_offered : (endAdd s).offered = s.offered := rfl
@[simp] theorem endAdd_responses : (endAdd s).responses = s.responses := rfl
@[simp] theorem endAdd_hashRequests : (endAdd s).hashRequests = s.hashRequests := rfl
@[simp] theorem endAdd_hashUnit : (endAdd s).hashUnit = s.hashUnit := rfl
@[simp] theorem endAdd_resetLine : (endAdd s).resetLine = s.resetLine := rfl
@[simp] theorem endAdd_freeUsed : (endAdd s).freeUsed = s.freeUsed + 7 := rfl
end EndAdd

section EndContains
@[simp] theorem endContains_wordCount : (endContains s).wordCount = s.wordCount := rfl
@[simp] theorem endContains_probeCount : (endContains s).probeCount = s.probeCount := rfl
@[simp] theorem endContains_bits : (endContains s).bits = s.bits := rfl
@[simp] theorem endContains_outstanding : (endContains s).outstanding = s.outstanding := rfl
@[simp] theorem endContains_offered : (endContains s).offered = s.offered := rfl
@[simp] theorem endContains_responses : (endContains s).responses = s.responses := rfl
@[simp] theorem endContains_hashRequests : (endContains s).hashRequests = s.hashRequests := rfl
@[simp] theorem endContains_hashUnit : (endContains s).hashUnit = s.hashUnit := rfl
@[simp] theorem endContains_resetLine : (endContains s).resetLine = s.resetLine := rfl
@[simp] theorem endContains_freeUsed : (endContains s).freeUsed = s.freeUsed + 8 := rfl
end EndContains

/-- Only `work` differs after the two address registers are written. -/
theorem noteBitAddress_eq {t : Nat} (x : Fin t) : noteBitAddress x s = { s with work := (noteBitAddress x s).work } := rfl
@[simp] theorem noteBitAddress_hit {t : Nat} (x : Fin t) : (noteBitAddress x s).work.hit = s.work.hit := rfl
@[simp] theorem noteBitAddress_base {t : Nat} (x : Fin t) : (noteBitAddress x s).work.base = s.work.base := rfl
@[simp] theorem noteBitAddress_ctr {t : Nat} (x : Fin t) : (noteBitAddress x s).work.ctr = s.work.ctr := rfl
@[simp] theorem noteBitAddress_i {t : Nat} (x : Fin t) : (noteBitAddress x s).work.i = s.work.i := rfl

/-- Only `bits` and `work` differ after SETBIT. -/
theorem setBit_eq {t : Nat} (x : Fin t) :
    setBit x s = { s with bits := s.bits.setBit x.val, work := (noteBitAddress x s).work } := rfl
@[simp] theorem setBit_bits {t : Nat} (x : Fin t) : (setBit x s).bits = s.bits.setBit x.val := rfl
@[simp] theorem setBit_work {t : Nat} (x : Fin t) : (setBit x s).work = (noteBitAddress x s).work := rfl
@[simp] theorem setBit_hashUnit {t : Nat} (x : Fin t) : (setBit x s).hashUnit = s.hashUnit := rfl
@[simp] theorem setBit_hashRequests {t : Nat} (x : Fin t) : (setBit x s).hashRequests = s.hashRequests := rfl
@[simp] theorem setBit_outstanding {t : Nat} (x : Fin t) : (setBit x s).outstanding = s.outstanding := rfl

section Port
variable (f : Frame) (offered : List Frame)
@[simp] theorem advanceReset_wordCount : (advanceReset s).wordCount = s.wordCount := rfl
@[simp] theorem advanceReset_probeCount : (advanceReset s).probeCount = s.probeCount := rfl
@[simp] theorem advanceReset_bits : (advanceReset s).bits = s.bits := rfl
@[simp] theorem advanceReset_outstanding : (advanceReset s).outstanding = s.outstanding := rfl
@[simp] theorem advanceReset_offered : (advanceReset s).offered = s.offered := rfl
@[simp] theorem advanceReset_responses : (advanceReset s).responses = s.responses := rfl
@[simp] theorem advanceReset_hashRequests : (advanceReset s).hashRequests = s.hashRequests := rfl
@[simp] theorem advanceReset_hashUnit : (advanceReset s).hashUnit = s.hashUnit := rfl
@[simp] theorem advanceReset_resetLine : (advanceReset s).resetLine = s.resetLine.tail := rfl
@[simp] theorem takeFrame_wordCount : (takeFrame s).wordCount = s.wordCount := rfl
@[simp] theorem takeFrame_probeCount : (takeFrame s).probeCount = s.probeCount := rfl
@[simp] theorem takeFrame_bits : (takeFrame s).bits = s.bits := rfl
@[simp] theorem takeFrame_outstanding : (takeFrame s).outstanding = s.outstanding := rfl
@[simp] theorem takeFrame_offered : (takeFrame s).offered = s.offered.tail := rfl
@[simp] theorem takeFrame_responses : (takeFrame s).responses = s.responses := rfl
@[simp] theorem takeFrame_hashRequests : (takeFrame s).hashRequests = s.hashRequests := rfl
@[simp] theorem takeFrame_hashUnit : (takeFrame s).hashUnit = s.hashUnit := rfl
@[simp] theorem takeFrame_resetLine : (takeFrame s).resetLine = s.resetLine := rfl
@[simp] theorem resetEngine_wordCount : (resetEngine offered s).wordCount = 1 := rfl
@[simp] theorem resetEngine_probeCount : (resetEngine offered s).probeCount = 1 := rfl
@[simp] theorem resetEngine_bits : (resetEngine offered s).bits = [] := rfl
@[simp] theorem resetEngine_outstanding : (resetEngine offered s).outstanding = none := rfl
@[simp] theorem resetEngine_offered : (resetEngine offered s).offered = offered := rfl
@[simp] theorem resetEngine_responses : (resetEngine offered s).responses = [] := rfl
@[simp] theorem resetEngine_hashRequests : (resetEngine offered s).hashRequests = [] := rfl
@[simp] theorem resetEngine_hashUnit : (resetEngine offered s).hashUnit = s.hashUnit := rfl
@[simp] theorem resetEngine_resetLine : (resetEngine offered s).resetLine = s.resetLine := rfl
end Port

end Sys2Proof.Machine
end

