-- ==== Sys2Proof/Laws/Probe.lean ====
section
/-! SUPPORT. What the generator and the two probe loops do, said once: the loop's state before each probe
(`ProbeAt`), then one lemma for each loop, for a hash unit that answers and for one that falls silent. -/

namespace Sys2Proof.Machine

variable {c : Chip} {payload : Bytes} {s : State}

/-! ### Hash requests -/

/-- The hash unit after it has answered one more request, if it does. -/
def HashUnit.spend : HashUnit → Option HashUnit
  | .answersAll => some .answersAll
  | .answersOnly 0 => none
  | .answersOnly (n + 1) => some (.answersOnly n)

/-- An answered request: the bytes are on the port's record, nothing is outstanding, the reply is the hash. -/
theorem hashReq_answered {u : HashUnit} (h : s.hashUnit.spend = some u) (bs : Bytes) :
    hashReq c bs s = .done (c.hash64 bs)
      { s with hashRequests := s.hashRequests ++ [bs], outstanding := none, hashUnit := u } := by
  unfold hashReq
  match hs : s.hashUnit with
  | .answersAll => rw [hs] at h; cases h; simp [← hs]
  | .answersOnly 0 => rw [hs] at h; cases h
  | .answersOnly (n + 1) => rw [hs] at h; cases h; rfl

/-- A request that is never answered stays outstanding. -/
theorem hashReq_silent (h : s.hashUnit = .answersOnly 0) (bs : Bytes) :
    hashReq c bs s = .waits { s with hashRequests := s.hashRequests ++ [bs], outstanding := some bs } := by
  simp [hashReq, h]

/-! ### The closed form -/

theorem probeValue_succ (i : Nat) : probeValue c payload (i + 1) = c.hash64 (hashRequest c payload (i + 1)) := rfl

theorem probeIndex_lt {t : Nat} (ht : 0 < t) (i : Nat) : probeIndex c payload t i < t := Nat.mod_lt _ ht

theorem hashRequestList_succ (n : Nat) :
    hashRequestList c payload (n + 1) = hashRequestList c payload n ++ [hashRequest c payload n] := by
  simp [hashRequestList, List.range_succ]

/-! ### The state before probe `j` -/

/-- Before probe `j`: BASE is the payload's hash, I is `j`, CTR is `(BASE + j) mod 2^64` (41_probe_sequence.md R69). -/
structure ProbeAt (c : Chip) (payload : Bytes) (j : Nat) (s : State) : Prop where
  base : s.work.base = c.hash64 payload
  i : s.work.i = BitVec.ofNat 64 j
  ctr : s.work.ctr = c.hash64 payload + BitVec.ofNat 64 j

/-- The requests of the probes `j` to `j + n - 1`: none for probe 0. -/
def requestsFrom (c : Chip) (payload : Bytes) (j n : Nat) : List Bytes :=
  ((List.range' j n).filter (· ≠ 0)).map (hashRequest c payload)

theorem requestsFrom_zero (j : Nat) : requestsFrom c payload j 0 = [] := rfl

theorem requestsFrom_succ (j n : Nat) :
    requestsFrom c payload j (n + 1) =
      (if j = 0 then [] else [hashRequest c payload j]) ++ requestsFrom c payload (j + 1) n := by
  unfold requestsFrom
  by_cases h : j = 0 <;> simp [List.range'_succ, h]

/-- The payload's request and the requests of probes 0 to n-1 are the first requests of R99. -/
theorem payload_requestsFrom (n : Nat) :
    payload :: requestsFrom c payload 0 n = hashRequestList c payload (max n 1) := by
  have key : ∀ m, payload :: requestsFrom c payload 0 (m + 1) = hashRequestList c payload (m + 1) := by
    intro m
    rw [requestsFrom_succ, hashRequestList, List.range_succ_eq_map, List.map_cons, List.map_map]
    have : ∀ m j, requestsFrom c payload (j + 1) m =
        (List.range m).map (fun i => hashRequest c payload (j + 1 + i)) := by
      intro m
      induction m with
      | zero => intro j; rfl
      | succ m ih =>
        intro j
        rw [requestsFrom_succ, ih (j + 1), List.range_succ_eq_map, List.map_cons, List.map_map]
        simp only [Nat.add_eq_zero_iff, one_ne_zero, and_false, if_false, List.singleton_append, Nat.add_zero]
        congr 1
        apply List.map_congr_left
        intro i _
        simp only [Function.comp]
        congr 1
        omega
    rw [this m 0]
    simp only [if_true, List.nil_append, hashRequest]
    congr 1
    apply List.map_congr_left
    intro i _
    simp only [Function.comp, Nat.zero_add, Nat.succ_eq_add_one]
    rw [Nat.add_comm 1 i]
    rfl
  cases n with
  | zero => simp [requestsFrom, hashRequestList, hashRequest]
  | succ m => rw [key, Nat.max_eq_left (by omega)]

theorem ProbeAt.i_eq_zero {j : Nat} (hp : ProbeAt c payload j s) (hj : j < 2 ^ 64) : s.work.i = 0 ↔ j = 0 := by
  rw [hp.i]
  constructor
  · intro h
    have := congrArg BitVec.toNat h
    simp only [BitVec.toNat_ofNat, BitVec.ofNat_eq_ofNat] at this
    omega
  · rintro rfl; rfl

/-- What a probe writes: H, IDX, I + 1 and CTR + 1, and it leaves HIT alone. -/
structure ProbeDone (c : Chip) (payload : Bytes) (t j : Nat) (s : State) (w : Working) : Prop where
  base : w.base = c.hash64 payload
  i : w.i = BitVec.ofNat 64 (j + 1)
  ctr : w.ctr = c.hash64 payload + BitVec.ofNat 64 (j + 1)
  hit : w.hit = s.work.hit
  h : w.h = probeValue c payload j
  idx : w.idx = BitVec.ofNat 64 (probeIndex c payload t j)

theorem ProbeAt.noteProbe {t j : Nat} (ht : 0 < t) (hp : ProbeAt c payload j s) :
    ProbeDone c payload t j s
      (noteProbe (probeValue c payload j) (bitIndex (probeValue c payload j) ht) s).work := by
  have hs : BitVec.ofNat 64 j + 1 = BitVec.ofNat 64 (j + 1) := by
    apply BitVec.eq_of_toNat_eq; simp [Nat.add_mod]
  constructor
  · exact hp.base
  · simp only [Machine.noteProbe, hp.i, hs]
  · simp only [Machine.noteProbe, hp.ctr, BitVec.add_assoc, hs]
  all_goals rfl

/-- Probe `j`, whose request (probe 0 makes none) is answered. -/
theorem probeStep_done {t j : Nat} {u : HashUnit} (ht : 0 < t) (hj : j < 2 ^ 64) (hp : ProbeAt c payload j s)
    (hu : if j = 0 then u = s.hashUnit else s.hashUnit.spend = some u) :
    ∃ w, probeStep c ht s =
        .done ⟨probeIndex c payload t j, probeIndex_lt ht j⟩
          { s with
            work := w
            hashRequests := s.hashRequests ++ (if j = 0 then [] else [hashRequest c payload j])
            outstanding := if j = 0 then s.outstanding else none
            hashUnit := u } ∧
      ProbeDone c payload t j s w := by
  refine ⟨_, ?_, hp.noteProbe ht⟩
  rw [probeStep, probeHash]
  by_cases h0 : j = 0
  · subst h0
    rw [if_pos rfl] at hu
    subst hu
    rw [if_pos ((hp.i_eq_zero hj).2 rfl), hp.base]
    simp only [Progress.andThen, if_true, List.append_nil, noteProbe, bitIndex, probeIndex, probeValue]
  · rw [if_neg h0] at hu
    rw [if_neg (mt (hp.i_eq_zero hj).1 h0), hp.ctr, hashReq_answered hu]
    obtain ⟨j, rfl⟩ := Nat.exists_eq_succ_of_ne_zero h0
    simp only [Progress.andThen, if_neg h0, noteProbe, bitIndex, probeIndex, probeValue, hashRequest,
      Nat.succ_eq_add_one]

/-- Probe `j >= 1`, whose request is never answered. -/
theorem probeStep_waits {t j : Nat} (ht : 0 < t) (hj : j < 2 ^ 64) (h0 : j ≠ 0) (hp : ProbeAt c payload j s)
    (hu : s.hashUnit = .answersOnly 0) :
    probeStep c ht s = .waits
      { s with
        hashRequests := s.hashRequests ++ [hashRequest c payload j]
        outstanding := some (hashRequest c payload j) } := by
  rw [probeStep, probeHash, if_neg (mt (hp.i_eq_zero hj).1 h0), hp.ctr, hashReq_silent hu]
  obtain ⟨j, rfl⟩ := Nat.exists_eq_succ_of_ne_zero h0
  rfl

/-- PROBE_INIT, answered: the loop stands before probe 0. -/
theorem probeInit_done {u : HashUnit} (hu : s.hashUnit.spend = some u) :
    ∃ w, probeInit c payload s = .done ()
        { s with work := w, hashRequests := s.hashRequests ++ [payload], outstanding := none, hashUnit := u } ∧
      ProbeAt c payload 0 { s with work := w } ∧ w.hit = s.work.hit := by
  rw [probeInit, hashReq_answered hu]
  refine ⟨_, rfl, ⟨rfl, rfl, ?_⟩, rfl⟩
  simp

/-- The indices of the probes `j` to `j + n - 1`. -/
def indicesFrom (c : Chip) (payload : Bytes) (t j n : Nat) : List Nat :=
  (List.range' j n).map (probeIndex c payload t)

theorem mem_indicesFrom_zero {t n x : Nat} :
    x ∈ indicesFrom c payload t 0 n ↔ ∃ i, i < n ∧ x = probeIndex c payload t i := by
  simp [indicesFrom, List.mem_range', eq_comm]

/-! ### The loops, with a hash unit that answers -/

theorem probeSteps_done {t : Nat} (ht : 0 < t) {n j : Nat} (hn : j + n ≤ 2 ^ 64) (hp : ProbeAt c payload j s)
    (ha : s.hashUnit = .answersAll) :
    ∃ is w, probeSteps c ht n s = .done is
        { s with
          work := w
          hashRequests := s.hashRequests ++ requestsFrom c payload j n
          outstanding := if n ≤ 1 ∧ j = 0 ∨ n = 0 then s.outstanding else none } ∧
      is.map Fin.val = indicesFrom c payload t j n ∧
      ProbeAt c payload (j + n) { s with work := w } ∧ w.hit = s.work.hit ∧
      (n ≠ 0 → w.h = probeValue c payload (j + n - 1) ∧
        w.idx = BitVec.ofNat 64 (probeIndex c payload t (j + n - 1))) := by
  induction n generalizing s j with
  | zero => exact ⟨[], s.work, by simp [probeSteps, requestsFrom_zero], rfl, hp, rfl, fun h => absurd rfl h⟩
  | succ n ih =>
    obtain ⟨w, hw, hd⟩ := probeStep_done (u := .answersAll) ht (by omega) hp (by split <;> simp [ha, HashUnit.spend])
    obtain ⟨is, w', h1, h2, h3, h4, h5⟩ := ih (j := j + 1)
      (s := { s with
        work := w
        hashRequests := s.hashRequests ++ (if j = 0 then [] else [hashRequest c payload j])
        outstanding := if j = 0 then s.outstanding else none
        hashUnit := .answersAll }) (by omega) ⟨hd.base, hd.i, hd.ctr⟩ rfl
    refine ⟨⟨probeIndex c payload t j, probeIndex_lt ht j⟩ :: is, w', ?_, ?_, ?_, h4.trans hd.hit, ?_⟩
    · rw [probeSteps, hw]
      simp only [Progress.andThen]
      rw [h1]
      simp only [requestsFrom_succ, List.append_assoc, ha]
      congr 2
      by_cases hj : j = 0 <;> by_cases hn0 : n = 0 <;> simp [hj, hn0]
    · simp [h2, indicesFrom, List.range'_succ]
    · have : j + 1 + n = j + (n + 1) := by omega
      rw [this] at h3
      exact ⟨h3.base, h3.i, h3.ctr⟩
    · intro _
      by_cases hn0 : n = 0
      · subst hn0
        simp only [probeSteps, Progress.done.injEq] at h1
        have : w' = w := (congrArg State.work h1.2).symm
        subst this
        exact ⟨hd.h, hd.idx⟩
      · have := h5 hn0
        rwa [show j + 1 + n - 1 = j + (n + 1) - 1 by omega] at this

theorem addProbes_done {t : Nat} (ht : 0 < t) {n j : Nat} (hn : j + n ≤ 2 ^ 64) (hp : ProbeAt c payload j s)
    (ha : s.hashUnit = .answersAll) (ho : s.outstanding = none) :
    ∃ w, addProbes c ht n s = .done ()
        { s with
          work := w
          bits := s.bits.setBits (indicesFrom c payload t j n)
          hashRequests := s.hashRequests ++ requestsFrom c payload j n } ∧
      w.hit = s.work.hit := by
  induction n generalizing s j with
  | zero => exact ⟨s.work, by simp [addProbes, requestsFrom_zero, indicesFrom, Memory.setBits], rfl⟩
  | succ n ih =>
    obtain ⟨w, hw, hd⟩ := probeStep_done (u := .answersAll) ht (by omega) hp (by split <;> simp [ha, HashUnit.spend])
    obtain ⟨w', h1, h2⟩ := ih (j := j + 1)
      (s := setBit ⟨probeIndex c payload t j, probeIndex_lt ht j⟩
        { s with
          work := w
          hashRequests := s.hashRequests ++ (if j = 0 then [] else [hashRequest c payload j])
          outstanding := if j = 0 then s.outstanding else none
          hashUnit := .answersAll }) (by omega) ⟨hd.base, hd.i, hd.ctr⟩ rfl (by simp [ho])
    refine ⟨w', ?_, h2.trans hd.hit⟩
    rw [addProbes, hw]
    simp only [Progress.andThen]
    rw [h1]
    simp only [requestsFrom_succ, List.append_assoc, ha, ho, setBit_eq, indicesFrom, List.range'_succ, List.map_cons,
      Memory.setBits_cons, ite_self]

/-- The loop of CONTAINS: it makes the probes up to the first miss, and HIT is whether there is none. -/
theorem containsProbes_done {t : Nat} (ht : 0 < t) {n j : Nat} (hn : j + n ≤ 2 ^ 64) (hp : ProbeAt c payload j s)
    (ha : s.hashUnit = .answersAll) (ho : s.outstanding = none) (hh : s.work.hit = true) :
    ∃ w m, containsProbes c ht n s = .done ()
        { s with work := w, hashRequests := s.hashRequests ++ requestsFrom c payload j m } ∧ m ≤ n ∧
      (∀ i, i + 1 < m → s.bits.bit (probeIndex c payload t (j + i)) = true) ∧
      ((w.hit = true ∧ m = n ∧ ∀ i, i < n → s.bits.bit (probeIndex c payload t (j + i)) = true) ∨
        (w.hit = false ∧ 0 < m ∧ s.bits.bit (probeIndex c payload t (j + (m - 1))) = false)) := by
  induction n generalizing s j with
  | zero =>
    exact ⟨s.work, 0, by simp [containsProbes, requestsFrom_zero], le_refl _, by simp, .inl ⟨hh, rfl, by simp⟩⟩
  | succ n ih =>
    obtain ⟨w, hw, hd⟩ := probeStep_done (u := .answersAll) ht (by omega) hp (by split <;> simp [ha, HashUnit.spend])
    rw [containsProbes, hw]
    simp only [Progress.andThen, testBit]
    match hb : s.bits.bit (probeIndex c payload t j) with
    | false =>
      refine ⟨(setHit false (noteBitAddress (⟨probeIndex c payload t j, probeIndex_lt ht j⟩ : Fin t)
          { s with work := w })).work, 1, ?_, by omega, fun i hi => absurd hi (by omega), .inr ⟨rfl, by omega, by simpa using hb⟩⟩
      simp [setHit, noteBitAddress, requestsFrom_succ, requestsFrom_zero, ha, ho]
    | true =>
      obtain ⟨w', m, h1, h2, h3, h4⟩ := ih (j := j + 1)
        (s := noteBitAddress (⟨probeIndex c payload t j, probeIndex_lt ht j⟩ : Fin t)
          { s with
            work := w
            hashRequests := s.hashRequests ++ (if j = 0 then [] else [hashRequest c payload j])
            outstanding := if j = 0 then s.outstanding else none
            hashUnit := .answersAll }) (by omega) ⟨hd.base, hd.i, hd.ctr⟩ rfl (by simp [noteBitAddress, ho])
        (hd.hit.trans hh)
      have hall : ∀ i, i + 1 < m + 1 → s.bits.bit (probeIndex c payload t (j + i)) = true := by
        intro i hi
        cases i with
        | zero => simpa using hb
        | succ i =>
          rw [show j + (i + 1) = j + 1 + i by omega]
          exact h3 i (by omega)
      refine ⟨w', m + 1, ?_, by omega, hall, ?_⟩
      · simp only
        rw [h1]
        simp only [noteBitAddress, requestsFrom_succ, List.append_assoc, ha, ho, ite_self]
      · rcases h4 with ⟨h4, rfl, h5⟩ | ⟨h4, h5, h6⟩
        · refine .inl ⟨h4, rfl, ?_⟩
          intro i hi
          cases i with
          | zero => simpa using hb
          | succ i =>
            have := h5 i (by omega)
            rwa [show j + (i + 1) = j + 1 + i by omega]
        · refine .inr ⟨h4, by omega, ?_⟩
          rw [show j + (m + 1 - 1) = j + 1 + (m - 1) by omega]
          exact h6

/-! ### The loop of ADD, with a hash unit that falls silent -/

theorem addProbes_waits {t : Nat} (ht : 0 < t) {n j m : Nat} (hn : j + n ≤ 2 ^ 64) (hm : m < n) (hj0 : j ≠ 0)
    (hp : ProbeAt c payload j s) (hu : s.hashUnit = .answersOnly m) (ho : s.outstanding = none) :
    ∃ w, addProbes c ht n s = .waits
        { s with
          work := w
          bits := s.bits.setBits (indicesFrom c payload t j m)
          hashRequests := s.hashRequests ++ requestsFrom c payload j (m + 1)
          outstanding := some (hashRequest c payload (j + m))
          hashUnit := .answersOnly 0 } ∧ ProbeAt c payload (j + m) { s with work := w } ∧ w.hit = s.work.hit := by
  induction n generalizing s j m with
  | zero => omega
  | succ n ih =>
    cases m with
    | zero =>
      refine ⟨s.work, ?_, hp, rfl⟩
      rw [addProbes, probeStep_waits ht (by omega) hj0 hp hu]
      simp [Progress.andThen, indicesFrom, Memory.setBits, requestsFrom_succ, requestsFrom_zero, hj0, hu]
    | succ m =>
      obtain ⟨w, hw, hd⟩ := probeStep_done (u := .answersOnly m) ht (by omega) hp (by simp [hu, HashUnit.spend, hj0])
      obtain ⟨w', h1, h2, h3⟩ := ih (j := j + 1) (m := m)
        (s := setBit ⟨probeIndex c payload t j, probeIndex_lt ht j⟩
          { s with
            work := w
            hashRequests := s.hashRequests ++ (if j = 0 then [] else [hashRequest c payload j])
            outstanding := if j = 0 then s.outstanding else none
            hashUnit := .answersOnly m }) (by omega) (by omega) (by omega) ⟨hd.base, hd.i, hd.ctr⟩ rfl (by simp [ho])
      have e : j + 1 + m = j + (m + 1) := by omega
      rw [e] at h1 h2
      refine ⟨w', ?_, ⟨h2.base, h2.i, h2.ctr⟩, h3.trans hd.hit⟩
      rw [addProbes, hw]
      simp only [Progress.andThen]
      rw [h1]
      rw [requestsFrom_succ j (m + 1)]
      simp only [List.append_assoc, setBit_eq, indicesFrom, List.range'_succ, List.map_cons, Memory.setBits_cons]

/-! ### The loop of CONTAINS, with a hash unit that falls silent -/

theorem containsProbes_waits {t : Nat} (ht : 0 < t) {n j m : Nat} (hn : j + n ≤ 2 ^ 64) (hm : m < n) (hj0 : j ≠ 0)
    (hp : ProbeAt c payload j s) (hu : s.hashUnit = .answersOnly m) (ho : s.outstanding = none)
    (hb : ∀ i, i < m → s.bits.bit (probeIndex c payload t (j + i)) = true) :
    ∃ w, containsProbes c ht n s = .waits
        { s with
          work := w
          hashRequests := s.hashRequests ++ requestsFrom c payload j (m + 1)
          outstanding := some (hashRequest c payload (j + m))
          hashUnit := .answersOnly 0 } := by
  induction n generalizing s j m with
  | zero => omega
  | succ n ih =>
    cases m with
    | zero =>
      refine ⟨s.work, ?_⟩
      rw [containsProbes, probeStep_waits ht (by omega) hj0 hp hu]
      simp [Progress.andThen, requestsFrom_succ, requestsFrom_zero, hj0, hu]
    | succ m =>
      obtain ⟨w, hw, hd⟩ := probeStep_done (u := .answersOnly m) ht (by omega) hp (by simp [hu, HashUnit.spend, hj0])
      obtain ⟨w', h1⟩ := ih (j := j + 1) (m := m)
        (s := noteBitAddress (⟨probeIndex c payload t j, probeIndex_lt ht j⟩ : Fin t)
          { s with
            work := w
            hashRequests := s.hashRequests ++ (if j = 0 then [] else [hashRequest c payload j])
            outstanding := if j = 0 then s.outstanding else none
            hashUnit := .answersOnly m }) (by omega) (by omega) (by omega) ⟨hd.base, hd.i, hd.ctr⟩ rfl
        (by simp [noteBitAddress, ho]) (by
          intro i hi
          rw [show j + 1 + i = j + (i + 1) by omega]
          exact hb (i + 1) (by omega))
      have e : j + 1 + m = j + (m + 1) := by omega
      rw [e] at h1
      refine ⟨w', ?_⟩
      rw [containsProbes, hw]
      simp only [Progress.andThen, testBit]
      rw [show s.bits.bit (probeIndex c payload t j) = true from hb 0 (by omega)]
      simp only
      rw [h1, requestsFrom_succ j (m + 1)]
      simp only [noteBitAddress, List.append_assoc]

end Sys2Proof.Machine
end

