-- ==== Sys2Proof/Laws/Commands.lean ====
section
/-! SUPPORT. What each command does, said once, and what any command can do to the architectural state. -/

namespace Sys2Proof.Machine

variable {c : Chip} {payload : Bytes} {s : State}

theorem State.totalBits_eq (s : State) : s.totalBits = s.wordCount.toNat * 64 := rfl

theorem State.totalBits_pos (h : 1 ≤ s.wordCount.toNat) : 0 < s.totalBits := by
  rw [State.totalBits_eq]; omega

/-! ### Each command, with a hash unit that answers -/

/-- ADD: every probed bit set, the requests of R99, (OK, 0) (42_filter_commands.md R75). -/
theorem addOn_answered (hw : 1 ≤ s.wordCount.toNat) (ha : s.hashUnit = .answersAll) :
    ∃ w, addOn c payload s = .next (endAdd (respond .ok 0
        { s with
          work := w
          bits := s.bits.setBits (indicesFrom c payload s.totalBits 0 s.probeCount.toNat)
          hashRequests := s.hashRequests ++ hashRequestList c payload (max s.probeCount.toNat 1)
          outstanding := none })) ∧
      w.hit = s.work.hit := by
  have ht := State.totalBits_pos hw
  have hk : s.probeCount.toNat < 2 ^ 64 := s.probeCount.isLt
  obtain ⟨w, h1, h2, h3⟩ := probeInit_done (c := c) (payload := payload) (s := s) (u := .answersAll)
    (by simp [ha, HashUnit.spend])
  obtain ⟨w', h4, h5⟩ := addProbes_done (c := c) (payload := payload) (j := 0) (n := s.probeCount.toNat)
    (s := { s with
      work := w, hashRequests := s.hashRequests ++ [payload], outstanding := none, hashUnit := .answersAll })
    ht (by omega) ⟨h2.base, h2.i, h2.ctr⟩ rfl rfl
  refine ⟨w', ?_, h5.trans h3⟩
  rw [addOn, dif_pos ht, h1]
  simp only [Progress.andThen]
  rw [h4]
  simp only [Progress.finish, List.append_assoc, List.singleton_append, payload_requestsFrom, ha]

/-- CONTAINS: the probes up to the first miss, (OK, HIT) (42_filter_commands.md R76). -/
theorem containsOn_answered (hw : 1 ≤ s.wordCount.toNat) (ha : s.hashUnit = .answersAll) :
    ∃ w m, containsOn c payload s = .next (endContains (respond .ok (hitValue w.hit)
        { s with
          work := w
          hashRequests := s.hashRequests ++ hashRequestList c payload (max m 1)
          outstanding := none })) ∧
      m ≤ s.probeCount.toNat ∧
      (∀ i, i + 1 < m → s.bits.bit (probeIndex c payload s.totalBits i) = true) ∧
      ((w.hit = true ∧ m = s.probeCount.toNat ∧
          ∀ i, i < s.probeCount.toNat → s.bits.bit (probeIndex c payload s.totalBits i) = true) ∨
        (w.hit = false ∧ 0 < m ∧ s.bits.bit (probeIndex c payload s.totalBits (m - 1)) = false)) := by
  have ht := State.totalBits_pos hw
  have hk : s.probeCount.toNat < 2 ^ 64 := s.probeCount.isLt
  obtain ⟨w, h1, h2, h3⟩ := probeInit_done (c := c) (payload := payload) (s := s) (u := .answersAll)
    (by simp [ha, HashUnit.spend])
  obtain ⟨w', m, h4, h5, h6, h7⟩ := containsProbes_done (c := c) (payload := payload) (j := 0) (n := s.probeCount.toNat)
    (s := setHit true { s with
      work := w, hashRequests := s.hashRequests ++ [payload], outstanding := none, hashUnit := .answersAll })
    ht (by omega) ⟨h2.base, h2.i, h2.ctr⟩ rfl rfl rfl
  refine ⟨w', m, ?_, h5, by simpa [setHit] using h6, by simpa [setHit] using h7⟩
  rw [containsOn, dif_pos ht, h1]
  simp only [Progress.andThen]
  rw [h4]
  simp only [Progress.finish, setHit, List.append_assoc, List.singleton_append, payload_requestsFrom, ha]

/-- CREATE that fits (42_filter_commands.md R74). -/
theorem createOn_fits {a k : Word} (h : max a.toNat 1 ≤ c.wMax) :
    createOn c a k s = .next (respond .ok 0 { s with wordCount := clamp a, probeCount := clamp k, bits := [] }) := by
  rw [createOn, if_neg (by rw [toNat_clamp]; omega)]

/-- CREATE that asks for too much (42_filter_commands.md R74, 60_exceptions.md R90). -/
theorem createOn_refused {a k : Word} (h : c.wMax < max a.toNat 1) : createOn c a k s = .next (raise .capacity s) := by
  rw [createOn, if_pos (by rw [toNat_clamp]; omega)]

/-! ### What part of a command can do, whatever the hash unit does -/

/-- The state a part of a command leaves. -/
def Progress.state {α : Type} : Progress α → State
  | .done _ s => s
  | .waits s => s

/-- From `s` to `s'` only bits below `t` were set, and nothing on the command or response port moved. -/
structure OnlySets (t : Nat) (s s' : State) : Prop where
  wordCount : s'.wordCount = s.wordCount
  probeCount : s'.probeCount = s.probeCount
  bits : ∃ xs, (∀ x ∈ xs, x < t) ∧ s'.bits = s.bits.setBits xs
  offered : s'.offered = s.offered
  responses : s'.responses = s.responses
  resetLine : s'.resetLine = s.resetLine

theorem OnlySets.refl (t : Nat) (s : State) : OnlySets t s s :=
  ⟨rfl, rfl, ⟨[], by simp, rfl⟩, rfl, rfl, rfl⟩

theorem OnlySets.trans {t : Nat} {s s' s'' : State} (h : OnlySets t s s') (h' : OnlySets t s' s'') : OnlySets t s s'' := by
  obtain ⟨xs, hx, hb⟩ := h.bits
  obtain ⟨ys, hy, hb'⟩ := h'.bits
  refine ⟨h'.1.trans h.1, h'.2.trans h.2, ⟨xs ++ ys, ?_, ?_⟩, h'.4.trans h.4, h'.5.trans h.5, h'.6.trans h.6⟩
  · intro x hx'
    rcases List.mem_append.1 hx' with hx' | hx'
    · exact hx x hx'
    · exact hy x hx'
  · rw [hb', hb, Memory.setBits, Memory.setBits, Memory.setBits, List.foldl_append]

theorem Progress.andThen_state {α β : Type} {t : Nat} {p : Progress α} {k : α → State → Progress β}
    (hp : OnlySets t s p.state) (hk : ∀ a s', OnlySets t s' (k a s').state) : OnlySets t s (p.andThen k).state := by
  cases p with
  | done a s' => exact hp.trans (hk a s')
  | waits s' => exact hp

theorem hashReq_onlySets (t : Nat) (bs : Bytes) (s : State) : OnlySets t s (hashReq c bs s).state := by
  unfold hashReq
  split <;> exact ⟨rfl, rfl, ⟨[], by simp, rfl⟩, rfl, rfl, rfl⟩

theorem probeInit_onlySets (t : Nat) (s : State) : OnlySets t s (probeInit c payload s).state :=
  Progress.andThen_state (hashReq_onlySets t _ s) fun _ _ => ⟨rfl, rfl, ⟨[], by simp, rfl⟩, rfl, rfl, rfl⟩

theorem probeStep_onlySets {t : Nat} (ht : 0 < t) (s : State) : OnlySets t s (probeStep c ht s).state := by
  refine Progress.andThen_state ?_ fun _ _ => ⟨rfl, rfl, ⟨[], by simp, rfl⟩, rfl, rfl, rfl⟩
  unfold probeHash
  split
  · exact OnlySets.refl t s
  · exact hashReq_onlySets t _ s

theorem setBit_onlySets {t : Nat} (x : Fin t) (s : State) : OnlySets t s (setBit x s) :=
  ⟨rfl, rfl, ⟨[x.val], by simp, rfl⟩, rfl, rfl, rfl⟩

theorem addProbes_onlySets {t : Nat} (ht : 0 < t) (n : Nat) (s : State) : OnlySets t s (addProbes c ht n s).state := by
  induction n generalizing s with
  | zero => exact OnlySets.refl t s
  | succ n ih => exact Progress.andThen_state (probeStep_onlySets ht s) fun x s' => (setBit_onlySets x s').trans (ih _)

theorem setHit_keeps (v : Bool) (s : State) : OnlySets 0 s (setHit v s) :=
  ⟨rfl, rfl, ⟨[], by simp, rfl⟩, rfl, rfl, rfl⟩

theorem noteBitAddress_keeps {t : Nat} (x : Fin t) (s : State) : OnlySets 0 s (noteBitAddress x s) :=
  ⟨rfl, rfl, ⟨[], by simp, rfl⟩, rfl, rfl, rfl⟩

/-- The loop of CONTAINS leaves the store as it is. -/
theorem containsProbes_keeps {t : Nat} (ht : 0 < t) (n : Nat) (s : State) :
    OnlySets 0 s (containsProbes c ht n s).state := by
  have probe : ∀ s, OnlySets 0 s (probeStep c ht s).state := by
    intro s
    refine Progress.andThen_state ?_ fun _ _ => ⟨rfl, rfl, ⟨[], by simp, rfl⟩, rfl, rfl, rfl⟩
    unfold probeHash
    split
    · exact OnlySets.refl 0 s
    · exact hashReq_onlySets 0 _ s
  induction n generalizing s with
  | zero => exact OnlySets.refl 0 s
  | succ n ih =>
    refine Progress.andThen_state (probe s) fun x s' => ?_
    simp only [testBit]
    cases s'.bits.bit x.val with
    | true => exact (noteBitAddress_keeps x s').trans (ih _)
    | false => exact ⟨rfl, rfl, ⟨[], by simp, rfl⟩, rfl, rfl, rfl⟩

theorem OnlySets.bits_eq {s' : State} (h : OnlySets 0 s s') : s'.bits = s.bits := by
  obtain ⟨xs, hx, hb⟩ := h.bits
  cases xs with
  | nil => exact hb
  | cons x xs => exact absurd (hx x (by simp)) (by omega)

/-- What one command can do to the architectural state and the ports: one response and some set bits (ADD), one response
and nothing (the others, and every error), a new filter (CREATE that fits), or no response at all (an unanswered hash
request, 60_exceptions.md R100). -/
structure Effect (i : Instr) (s t : State) : Prop where
  offered : t.offered = s.offered
  resetLine : t.resetLine = s.resetLine
  responses : t.responses = s.responses ∨ ∃ r, t.responses = s.responses ++ [r]
  arch :
    (∃ a k, i = .create a k ∧ max a.toNat 1 ≤ Config.chip.wMax ∧ t.wordCount = clamp a ∧ t.probeCount = clamp k ∧
      t.bits = []) ∨
    (t.wordCount = s.wordCount ∧ t.probeCount = s.probeCount ∧
      ∃ xs, (∀ x ∈ xs, x < s.wordCount.toNat * 64) ∧ t.bits = s.bits.setBits xs)

theorem Effect.of_keeps {i : Instr} {t : State} (h1 : t.wordCount = s.wordCount) (h2 : t.probeCount = s.probeCount)
    (h3 : t.bits = s.bits) (h4 : t.offered = s.offered) (h5 : t.resetLine = s.resetLine)
    (h6 : t.responses = s.responses ∨ ∃ r, t.responses = s.responses ++ [r]) : Effect i s t :=
  ⟨h4, h5, h6, .inr ⟨h1, h2, [], by simp, h3⟩⟩

theorem exec_add_eq (payload : Bytes) (s : State) : exec (.add payload) s = addOn Config.chip payload s := rfl
theorem exec_contains_eq (payload : Bytes) (s : State) : exec (.contains payload) s = containsOn Config.chip payload s := rfl
theorem exec_create_eq (a k : Word) (s : State) : exec (.create a k) s = createOn Config.chip a k s := rfl

/-- Every next state of a command is one of those effects. -/
theorem exec_effect {i : Instr} {t : State} (h : exec i s = .next t) : Effect i s t := by
  cases i with
  | create a k =>
    by_cases hf : max a.toNat 1 ≤ Config.chip.wMax
    · rw [exec_create_eq, createOn_fits hf] at h
      cases h
      exact ⟨rfl, rfl, .inr ⟨_, rfl⟩, .inl ⟨a, k, rfl, hf, rfl, rfl, rfl⟩⟩
    · rw [exec_create_eq, createOn_refused (by omega)] at h
      cases h
      exact .of_keeps rfl rfl rfl rfl rfl (.inr ⟨_, rfl⟩)
  | add payload =>
    rw [exec_add_eq, addOn] at h
    split at h
    · rename_i ht
      cases h
      have hs : OnlySets s.totalBits s ((probeInit Config.chip payload s).andThen
          fun _ s1 => addProbes Config.chip ht s.probeCount.toNat s1).state :=
        Progress.andThen_state (probeInit_onlySets _ s) fun _ s' => addProbes_onlySets ht _ s'
      revert hs
      generalize (probeInit Config.chip payload s).andThen
          (fun _ s1 => addProbes Config.chip ht s.probeCount.toNat s1) = p
      intro hs
      cases p with
      | done a s' =>
        exact ⟨hs.offered, hs.resetLine, .inr ⟨⟨.ok, 0⟩, by simp [Progress.finish]; exact hs.responses⟩,
          .inr ⟨hs.wordCount, hs.probeCount, hs.bits⟩⟩
      | waits s' => exact ⟨hs.offered, hs.resetLine, .inl hs.responses, .inr ⟨hs.wordCount, hs.probeCount, hs.bits⟩⟩
    · cases h
  | contains payload =>
    rw [exec_contains_eq, containsOn] at h
    split at h
    · rename_i ht
      cases h
      have hs : OnlySets 0 s ((probeInit Config.chip payload s).andThen
          fun _ s1 => containsProbes Config.chip ht s.probeCount.toNat (setHit true s1)).state :=
        Progress.andThen_state (probeInit_onlySets _ s) fun _ s' =>
          (setHit_keeps true s').trans (containsProbes_keeps ht _ _)
      revert hs
      generalize (probeInit Config.chip payload s).andThen
          (fun _ s1 => containsProbes Config.chip ht s.probeCount.toNat (setHit true s1)) = p
      intro hs
      cases p with
      | done a s' =>
        exact .of_keeps hs.wordCount hs.probeCount hs.bits_eq hs.offered hs.resetLine
          (.inr ⟨⟨.ok, hitValue s'.work.hit⟩, by simp [Progress.finish]; exact hs.responses⟩)
      | waits s' => exact .of_keeps hs.wordCount hs.probeCount hs.bits_eq hs.offered hs.resetLine (.inl hs.responses)
    · cases h
  | capacity => cases h; exact .of_keeps rfl rfl rfl rfl rfl (.inr ⟨_, rfl⟩)
  | probecount => cases h; exact .of_keeps rfl rfl rfl rfl rfl (.inr ⟨_, rfl⟩)
  | rdword index =>
    change execRdword index s = _ at h
    unfold execRdword at h
    split at h <;> cases h <;> exact .of_keeps rfl rfl rfl rfl rfl (.inr ⟨_, rfl⟩)

/-- With a hash unit that answers, every command ends with one response and leaves the engine free. -/
theorem exec_answered (i : Instr) (hw : 1 ≤ s.wordCount.toNat) (ha : s.hashUnit = .answersAll)
    (ho : s.outstanding = none) :
    ∃ t r, exec i s = .next t ∧ t.responses = s.responses ++ [r] ∧ t.outstanding = none ∧ t.hashUnit = .answersAll := by
  cases i with
  | create a k => rw [exec_create_eq, createOn]; split <;> exact ⟨_, _, rfl, rfl, ho, ha⟩
  | add p =>
    obtain ⟨w, h, -⟩ := addOn_answered (c := Config.chip) (payload := p) hw ha
    exact ⟨_, _, h, rfl, rfl, ha⟩
  | contains p =>
    obtain ⟨w, m, h, -⟩ := containsOn_answered (c := Config.chip) (payload := p) hw ha
    exact ⟨_, _, h, rfl, rfl, ha⟩
  | capacity => exact ⟨_, _, rfl, rfl, ho, ha⟩
  | probecount => exact ⟨_, _, rfl, rfl, ho, ha⟩
  | rdword index =>
    change ∃ t r, execRdword index s = _ ∧ _
    unfold execRdword
    split <;> exact ⟨_, _, rfl, rfl, ho, ha⟩

/-- With WORDCOUNT at least 1 every command answers a next state. -/
theorem exec_next (i : Instr) (hw : 1 ≤ s.wordCount.toNat) : ∃ t, exec i s = .next t := by
  have ht := State.totalBits_pos hw
  cases i with
  | create a k => rw [exec_create_eq, createOn]; split <;> exact ⟨_, rfl⟩
  | add payload => rw [exec_add_eq, addOn, dif_pos ht]; exact ⟨_, rfl⟩
  | contains payload => rw [exec_contains_eq, containsOn, dif_pos ht]; exact ⟨_, rfl⟩
  | capacity => exact ⟨_, rfl⟩
  | probecount => exact ⟨_, rfl⟩
  | rdword index =>
    change ∃ t, execRdword index s = _
    unfold execRdword
    split <;> exact ⟨_, rfl⟩

end Sys2Proof.Machine
end

