-- ==== Sys2Proof/Laws/Decode.lean ====
section
/-! SUPPORT. The fields of an assembled frame and what W0 selects. -/

namespace Sys2Proof

section OfWords
variable (w0 w1 w2 : Word) (p : Bytes)

@[simp] theorem Frame.payload_ofWords : (Frame.ofWords w0 w1 w2 p).payload = p := rfl

theorem getLsbD_append3 (k : Nat) :
    (w2 ++ w1 ++ w0 : BitVec 192).getLsbD k =
      if k < 64 then w0.getLsbD k else if k < 128 then w1.getLsbD (k - 64) else w2.getLsbD (k - 128) := by
  show BitVec.getLsbD (w := 64 + 64 + 64) (w2 ++ w1 ++ w0) k = _
  simp only [BitVec.getLsbD_append]
  split_ifs with h1 h2 h3 h3
  · rfl
  · rfl
  · omega
  · omega
  · rw [show k - 64 - 64 = k - 128 by omega]

@[simp] theorem Frame.w0_ofWords : (Frame.ofWords w0 w1 w2 p).w0 = w0 := by
  apply BitVec.eq_of_getLsbD_eq
  intro k hk
  simp only [Frame.w0, Frame.ofWords, BitVec.getLsbD_extractLsb', getLsbD_append3, hk, decide_true, Bool.true_and]
  rw [Nat.zero_add, if_pos hk]

@[simp] theorem Frame.arg0_ofWords : (Frame.ofWords w0 w1 w2 p).arg0 = w1 := by
  apply BitVec.eq_of_getLsbD_eq
  intro k hk
  simp only [Frame.arg0, Frame.ofWords, BitVec.getLsbD_extractLsb', getLsbD_append3, hk, decide_true, Bool.true_and]
  rw [if_neg (by omega), if_pos (by omega), show 64 + k - 64 = k by omega]

@[simp] theorem Frame.arg1_ofWords : (Frame.ofWords w0 w1 w2 p).arg1 = w2 := by
  apply BitVec.eq_of_getLsbD_eq
  intro k hk
  simp only [Frame.arg1, Frame.ofWords, BitVec.getLsbD_extractLsb', getLsbD_append3, hk, decide_true, Bool.true_and]
  rw [if_neg (by omega), if_neg (by omega), show 128 + k - 128 = k by omega]

end OfWords

/-- A frame is its three words and its payload. -/
theorem Frame.eq_ofWords (f : Frame) : f = Frame.ofWords f.w0 f.arg0 f.arg1 f.payload := by
  obtain ⟨d, p⟩ := f
  simp only [Frame.ofWords, Frame.w0, Frame.arg0, Frame.arg1, Frame.mk.injEq, and_true]
  apply BitVec.eq_of_getLsbD_eq
  intro k hk
  simp only [getLsbD_append3, BitVec.getLsbD_extractLsb']
  split_ifs with h1 h2
  · simp [h1]
  · simp [show k - 64 < 64 by omega, show 64 + (k - 64) = k by omega]
  · simp [show k - 128 < 64 by omega, show 128 + (k - 128) = k by omega]

/-- A word is its low byte and its upper 56 bits. -/
theorem word_eq_of_fields {v w : Word} (h1 : opcodeField v = opcodeField w) (h2 : rsvField v = rsvField w) : v = w := by
  apply BitVec.eq_of_getLsbD_eq
  intro k hk
  by_cases h : k < 8
  · have := congrArg (fun b : Byte => b.getLsbD k) h1
    simpa [opcodeField, h] using this
  · have := congrArg (fun b : BitVec 56 => b.getLsbD (k - 8)) h2
    have hk' : k - 8 < 56 := by omega
    simpa [rsvField, hk', show 8 + (k - 8) = k by omega] using this

theorem Opcode.ofCode_code (o : Opcode) : Opcode.ofCode o.code = some o := by cases o <;> decide

theorem Opcode.code_of_ofCode {b : Byte} {o : Opcode} (h : Opcode.ofCode b = some o) : o.code = b := by
  have := List.find?_some h
  simpa using this

theorem Opcode.opcodeField_w0 (o : Opcode) : opcodeField o.w0 = o.code := by cases o <;> decide
theorem Opcode.rsvField_w0 (o : Opcode) : rsvField o.w0 = 0 := by cases o <;> decide

/-- A descriptor selects a command exactly when W0 is the opcode zero-extended (30_encoding.md R51). -/
theorem decodeOpcode_eq_ok {w0 : Word} {o : Opcode} : decodeOpcode w0 = .ok o ↔ w0 = o.w0 := by
  constructor
  · intro h
    unfold decodeOpcode at h
    split at h
    · cases h
    · rename_i o' ho
      split at h
      · rename_i hr
        cases h
        exact word_eq_of_fields (by rw [Opcode.opcodeField_w0, Opcode.code_of_ofCode ho]) (by rw [hr, Opcode.rsvField_w0])
      · cases h
  · rintro rfl
    simp [decodeOpcode, Opcode.opcodeField_w0, Opcode.ofCode_code, Opcode.rsvField_w0]

theorem decode_eq_ok {f : Frame} {i : Instr} : decode f = .ok i ↔ ∃ o : Opcode, f.w0 = o.w0 ∧ i = f.operands o := by
  unfold decode
  constructor
  · intro h
    match ho : decodeOpcode f.w0 with
    | .ok o =>
      rw [ho] at h
      cases h
      exact ⟨o, decodeOpcode_eq_ok.1 ho, rfl⟩
    | .error e => rw [ho] at h; cases h
  · rintro ⟨o, ho, rfl⟩
    rw [decodeOpcode_eq_ok.2 ho]
    rfl

end Sys2Proof
end

