-- ==== Sys2Proof/Laws/Step.lean ====
section
/-! SUPPORT. What a step can do, said once, and that accepting a frame keeps the invariant. -/

namespace Sys2Proof.Machine

variable {s t : State}

/-! ### The event of a step -/

theorem nextEvent_reset {offered : List Frame} {rest : List ResetInput} (h : s.resetLine = .asserted offered :: rest) :
    nextEvent s = .reset offered := by simp [nextEvent, h]

theorem nextEvent_released (h : s.resetReleased) :
    nextEvent s = match s.outstanding, s.offered with
      | some _, _ => .hashWait
      | none, [] => .idle
      | none, f :: _ => .frame f := by
  unfold nextEvent
  split
  · rename_i o r ho
    exact absurd ho (h o r)
  · rfl

theorem step_reset {offered : List Frame} {rest : List ResetInput} (h : s.resetLine = .asserted offered :: rest) :
    step s = .next (resetEngine offered (advanceReset s)) := by rw [step, nextEvent_reset h]; rfl

theorem step_frame {f : Frame} {rest : List Frame} (ho : s.outstanding = none) (hr : s.resetReleased)
    (hf : s.offered = f :: rest) :
    step s = accept f { s with offered := rest, resetLine := s.resetLine.tail } := by
  have he : nextEvent s = .frame f := by rw [nextEvent_released hr, ho, hf]
  rw [step, he]
  show accept f (takeFrame (advanceReset s)) = _
  simp only [takeFrame, advanceReset, hf, List.tail_cons]

theorem step_idle (ho : s.outstanding = none) (hr : s.resetReleased) (hf : s.offered = []) :
    step s = .next (advanceReset s) := by rw [step, nextEvent_released hr, ho, hf]; rfl

theorem step_wait {request : Bytes} (ho : s.outstanding = some request) (hr : s.resetReleased) :
    step s = .next (advanceReset s) := by rw [step, nextEvent_released hr, ho]; rfl

/-- Every step is a reset, or nothing but the reset input moving on, or the handling of the first frame offered. -/
theorem step_cases (s : State) :
    (∃ offered rest, s.resetLine = .asserted offered :: rest ∧ step s = .next (resetEngine offered (advanceReset s))) ∨
    (s.resetReleased ∧ step s = .next (advanceReset s)) ∨
    (s.resetReleased ∧ s.outstanding = none ∧ ∃ f rest, s.offered = f :: rest ∧
      step s = accept f { s with offered := rest, resetLine := s.resetLine.tail }) := by
  by_cases hr : s.resetReleased
  · by_cases ho : s.outstanding = none
    · by_cases hf : s.offered = []
      · exact .inr (.inl ⟨hr, step_idle ho hr hf⟩)
      · obtain ⟨f, rest, hf⟩ := List.exists_cons_of_ne_nil hf
        exact .inr (.inr ⟨hr, ho, f, rest, hf, step_frame ho hr hf⟩)
    · obtain ⟨r, ho⟩ := Option.ne_none_iff_exists'.1 ho
      exact .inr (.inl ⟨hr, step_wait ho hr⟩)
  · simp only [State.resetReleased, not_forall, not_not] at hr
    obtain ⟨o, r, h⟩ := hr
    exact .inl ⟨o, r, h, step_reset h⟩

/-! ### Accepting a frame -/

theorem accept_ok {f : Frame} {i : Instr} (h : decode f = .ok i) (s : State) : accept f s = exec i s := by
  rw [accept, h]

theorem accept_error {f : Frame} {e : DecodeError} (h : decode f = .error e) (s : State) :
    accept f s = .next (raise .illegal s) := by rw [accept, h]

theorem accept_cases {f : Frame} (h : accept f s = .next t) :
    (∃ i, decode f = .ok i ∧ exec i s = .next t) ∨ (∃ e, decode f = .error e ∧ t = raise .illegal s) := by
  match hd : decode f with
  | .ok i => rw [accept_ok hd] at h; exact .inl ⟨i, rfl, h⟩
  | .error e => rw [accept_error hd] at h; cases h; exact .inr ⟨e, rfl, rfl⟩

/-! ### The invariant -/

theorem Inv.of_arch (hi : Inv s) (h1 : t.wordCount = s.wordCount) (h2 : t.probeCount = s.probeCount)
    {xs : List Nat} (hx : ∀ x ∈ xs, x < s.wordCount.toNat * 64) (h3 : t.bits = s.bits.setBits xs) : Inv t :=
  { wordCount_pos := by rw [h1]; exact hi.wordCount_pos
    wordCount_le := by rw [h1]; exact hi.wordCount_le
    probeCount_pos := by rw [h2]; exact hi.probeCount_pos
    bits_wf := by rw [h3]; exact Memory.wf_setBits hi.bits_wf xs
    bits_below := by rw [h3, h1]; exact Memory.below_setBits hi.bits_below hx }

theorem exec_keeps_inv {i : Instr} (hi : Inv s) (h : exec i s = .next t) : Inv t := by
  rcases (exec_effect h).arch with ⟨a, k, -, hf, h1, h2, h3⟩ | ⟨h1, h2, xs, hx, h3⟩
  · exact {
      wordCount_pos := by rw [h1, toNat_clamp]; omega
      wordCount_le := by rw [h1, toNat_clamp]; exact hf
      probeCount_pos := by rw [h2, toNat_clamp]; omega
      bits_wf := by rw [h3]; rfl
      bits_below := by rw [h3]; rfl }
  · exact hi.of_arch h1 h2 hx h3

theorem accept_keeps_inv {f : Frame} (hi : Inv s) (h : accept f s = .next t) : Inv t := by
  rcases accept_cases h with ⟨i, -, h⟩ | ⟨e, -, rfl⟩
  · exact exec_keeps_inv hi h
  · exact hi.of_arch rfl rfl (xs := []) (by simp) rfl

end Sys2Proof.Machine
end

