-- ==== Sys2Proof/Laws/Driver.lean ====
section
/-! SUPPORT. Frames that wait on the command port: no command looks at them. And runs, cut in two. -/

namespace Sys2Proof.Machine

variable {c : Chip} {payload : Bytes} {s t : State}

/-! ### A command does not look at the command port -/

/-- `s` with other frames waiting on the port. -/
def State.offer (l : List Frame) (s : State) : State := { s with offered := l }

section Offer
variable (l : List Frame) (s : State)
@[simp] theorem offer_offered : (s.offer l).offered = l := rfl
@[simp] theorem offer_wordCount : (s.offer l).wordCount = s.wordCount := rfl
@[simp] theorem offer_probeCount : (s.offer l).probeCount = s.probeCount := rfl
@[simp] theorem offer_bits : (s.offer l).bits = s.bits := rfl
@[simp] theorem offer_work : (s.offer l).work = s.work := rfl
@[simp] theorem offer_outstanding : (s.offer l).outstanding = s.outstanding := rfl
@[simp] theorem offer_responses : (s.offer l).responses = s.responses := rfl
@[simp] theorem offer_hashRequests : (s.offer l).hashRequests = s.hashRequests := rfl
@[simp] theorem offer_hashUnit : (s.offer l).hashUnit = s.hashUnit := rfl
@[simp] theorem offer_resetLine : (s.offer l).resetLine = s.resetLine := rfl
@[simp] theorem offer_freeUsed : (s.offer l).freeUsed = s.freeUsed := rfl
end Offer

/-- The same part of a command with other frames waiting. -/
def Progress.offer {α : Type} (l : List Frame) : Progress α → Progress α
  | .done a s => .done a (s.offer l)
  | .waits s => .waits (s.offer l)

theorem Progress.andThen_offer {α β : Type} (l : List Frame) (p : Progress α) {k : α → State → Progress β}
    (hk : ∀ a s, k a (s.offer l) = (k a s).offer l) : (p.offer l).andThen k = (p.andThen k).offer l := by
  cases p with
  | done a s => exact hk a s
  | waits s => rfl

theorem hashReq_offer (l : List Frame) (bs : Bytes) (s : State) :
    hashReq c bs (s.offer l) = (hashReq c bs s).offer l := by
  unfold hashReq
  rw [offer_hashUnit]
  split <;> rfl

theorem probeInit_offer (l : List Frame) (s : State) :
    probeInit c payload (s.offer l) = (probeInit c payload s).offer l := by
  rw [probeInit, hashReq_offer, Progress.andThen_offer _ _ fun _ _ => rfl, probeInit]

theorem probeStep_offer {n : Nat} (ht : 0 < n) (l : List Frame) (s : State) :
    probeStep c ht (s.offer l) = (probeStep c ht s).offer l := by
  have h : probeHash c (s.offer l) = (probeHash c s).offer l := by
    unfold probeHash
    rw [offer_work]
    split
    · rfl
    · exact hashReq_offer l _ s
  rw [probeStep, h, Progress.andThen_offer _ _ fun _ _ => rfl, probeStep]

theorem addProbes_offer {n : Nat} (ht : 0 < n) (l : List Frame) (k : Nat) (s : State) :
    addProbes c ht k (s.offer l) = (addProbes c ht k s).offer l := by
  induction k generalizing s with
  | zero => rfl
  | succ k ih =>
    rw [addProbes, probeStep_offer, Progress.andThen_offer _ _ fun x s' => ih (setBit x s'), addProbes]

theorem containsProbes_offer {n : Nat} (ht : 0 < n) (l : List Frame) (k : Nat) (s : State) :
    containsProbes c ht k (s.offer l) = (containsProbes c ht k s).offer l := by
  induction k generalizing s with
  | zero => rfl
  | succ k ih =>
    rw [containsProbes, probeStep_offer, Progress.andThen_offer, containsProbes]
    intro x s'
    simp only [testBit, offer_bits]
    cases s'.bits.bit x.val with
    | true => exact ih (noteBitAddress x s')
    | false => rfl

/-- The same answer with other frames waiting. -/
def Answer.offer (l : List Frame) : Answer → Answer
  | .next t => .next (t.offer l)
  | .fault r => .fault r
  | .refused r => .refused r

/-- No command reads or writes the frames on the command port (10_state.md R29). -/
theorem exec_offer (i : Instr) (l : List Frame) (s : State) : exec i (s.offer l) = Answer.offer l (exec i s) := by
  cases i with
  | create a k => rw [exec_create_eq, exec_create_eq, createOn, createOn]; split <;> rfl
  | add payload =>
    rw [exec_add_eq, exec_add_eq, addOn, addOn]
    by_cases ht : 0 < s.totalBits
    · have h : (probeInit Config.chip payload (s.offer l)).andThen
            (fun _ s1 => addProbes Config.chip ht s.probeCount.toNat s1) =
          ((probeInit Config.chip payload s).andThen
            fun _ s1 => addProbes Config.chip ht s.probeCount.toNat s1).offer l := by
        rw [probeInit_offer]
        exact Progress.andThen_offer _ _ fun _ s1 => addProbes_offer ht l _ s1
      rw [dif_pos ht, dif_pos (show 0 < (s.offer l).totalBits from ht)]
      refine (congrArg (fun p : Progress Unit => Host.Outcome.next (p.finish
        fun _ s2 => endAdd (respond .ok 0 s2))) h).trans ?_
      generalize (probeInit Config.chip payload s).andThen
        (fun _ s1 => addProbes Config.chip ht s.probeCount.toNat s1) = p
      cases p <;> rfl
    · rw [dif_neg ht, dif_neg (show ¬ 0 < (s.offer l).totalBits from ht)]; rfl
  | contains payload =>
    rw [exec_contains_eq, exec_contains_eq, containsOn, containsOn]
    by_cases ht : 0 < s.totalBits
    · have h : (probeInit Config.chip payload (s.offer l)).andThen
            (fun _ s1 => containsProbes Config.chip ht s.probeCount.toNat (setHit true s1)) =
          ((probeInit Config.chip payload s).andThen
            fun _ s1 => containsProbes Config.chip ht s.probeCount.toNat (setHit true s1)).offer l := by
        rw [probeInit_offer]
        exact Progress.andThen_offer _ _ fun _ s1 => containsProbes_offer ht l _ (setHit true s1)
      rw [dif_pos ht, dif_pos (show 0 < (s.offer l).totalBits from ht)]
      refine (congrArg (fun p : Progress Unit => Host.Outcome.next (p.finish
        fun _ s2 => endContains (respond .ok (hitValue s2.work.hit) s2))) h).trans ?_
      generalize (probeInit Config.chip payload s).andThen
        (fun _ s1 => containsProbes Config.chip ht s.probeCount.toNat (setHit true s1)) = p
      cases p <;> rfl
    · rw [dif_neg ht, dif_neg (show ¬ 0 < (s.offer l).totalBits from ht)]; rfl
  | capacity => rfl
  | probecount => rfl
  | rdword index =>
    change execRdword index _ = Answer.offer l (execRdword index s)
    unfold execRdword
    rw [offer_wordCount]
    split <;> rfl

/-- Nor does the handling of an illegal frame. -/
theorem accept_offer (f : Frame) (l : List Frame) (s : State) : accept f (s.offer l) = Answer.offer l (accept f s) := by
  unfold accept
  split
  · exact exec_offer _ l s
  · rfl

/-! ### Runs -/

/-- A run of `m + n` steps is a run of `m` and then of `n`. -/
theorem run_add {m : Nat} (n : Nat) (h : run m s = .next t) : run (m + n) s = run n t := by
  induction m generalizing s with
  | zero => cases h; rw [Nat.zero_add]
  | succ m ih =>
    rw [Nat.succ_add, run]
    rw [run] at h
    match hs : step s with
    | .next u => rw [hs] at h; exact ih h
    | .fault r => rw [hs] at h; cases h
    | .refused r => rw [hs] at h; cases h

/-! ### Waiting for a response -/

/-- One step of waiting, when no reset comes. -/
theorem awaitResponse_step {index n : Nat} (hr : s.resetReleased) (h : step s = .next t) :
    awaitResponse index (n + 1) s = awaitResponse index n t := by
  have he : ∀ o, nextEvent s ≠ .reset o := by
    intro o
    rw [nextEvent_released hr]
    split <;> simp
  rw [awaitResponse, h]
  generalize nextEvent s = e at he
  cases e with
  | reset offered => exact absurd rfl (he offered)
  | hashWait => rfl
  | idle => rfl
  | frame f => rfl

/-- A reset at once ends the wait. -/
theorem awaitResponse_reset {index n : Nat} {offered : List Frame} {rest : List ResetInput}
    (h : s.resetLine = .asserted offered :: rest) :
    awaitResponse index (n + 1) s = .next (none, resetEngine offered (advanceReset s)) := by
  rw [awaitResponse, nextEvent_reset h, step_reset h]

/-- Waiting along a run in which no reset comes ends in looking the response up. -/
theorem awaitResponse_run {index n : Nat} (hl : ∀ m u, m < n → run m s = .next u → u.resetReleased)
    (h : run n s = .next t) : awaitResponse index n s = .next (t.responses[index]?, t) := by
  induction n generalizing s with
  | zero => cases h; rfl
  | succ n ih =>
    rw [run] at h
    match hs : step s with
    | .next u =>
      rw [hs] at h
      rw [awaitResponse_step (hl 0 s (by omega) rfl) hs]
      refine ih (fun m v hm hv => hl (m + 1) v (by omega) ?_) h
      rw [run, hs]
      exact hv
    | .fault r => rw [hs] at h; cases h
    | .refused r => rw [hs] at h; cases h

end Sys2Proof.Machine
end

