-- ==== Sys2Proof/Laws/PerInstr.lean ====
section
/-! SUPPORT. Per-instruction families: statements about every command as syntax, one lemma per constructor. -/

namespace Sys2Proof.Laws

/-- The frame a command assembles to carries the command's opcode in W0 and nothing in RSV (30_encoding.md R48, R51, R58). -/
def EncodedOpcode.Statement (i : Instr) : Prop := (encode i).w0 = i.opcode.w0

theorem EncodedOpcode.create (w k : Word) : EncodedOpcode.Statement (.create w k) := Frame.w0_ofWords _ _ _ _
theorem EncodedOpcode.add (s : Bytes) : EncodedOpcode.Statement (.add s) := Frame.w0_ofWords _ _ _ _
theorem EncodedOpcode.contains (s : Bytes) : EncodedOpcode.Statement (.contains s) := Frame.w0_ofWords _ _ _ _
theorem EncodedOpcode.capacity : EncodedOpcode.Statement .capacity := Frame.w0_ofWords _ _ _ _
theorem EncodedOpcode.probecount : EncodedOpcode.Statement .probecount := Frame.w0_ofWords _ _ _ _
theorem EncodedOpcode.rdword (i : Word) : EncodedOpcode.Statement (.rdword i) := Frame.w0_ofWords _ _ _ _

end Sys2Proof.Laws
end

