-- ==== Sys2Proof/Tests/Slice0.lean ====
section
/-! SUPPORT. The model's own tests, and a witness for the hypotheses of each obligation.

Expected values come from spec/95_test_vectors.md (cited at each test) or are worked out by hand from the rules. H_ID and
H_MUL are that file's test hashes (section 0), not the engine's. -/

namespace Sys2Proof.Tests

open Sys2Proof Sys2Proof.Machine

/-! ### The test hashes of 95_test_vectors.md section 0 -/

/-- H_ID from chunk position `j` on: byte `j` of a chunk has weight `256^j`, the chunks are added modulo 2^64. -/
def hIdFrom : Nat → Bytes → Word
  | _, [] => 0
  | j, b :: bs => (b.setWidth 64 <<< (8 * j)) + hIdFrom ((j + 1) % 8) bs

def hId (bs : Bytes) : Word := hIdFrom 0 bs
def hMul (bs : Bytes) : Word := hId bs * 0x9E3779B97F4A7C15

def chipId : Chip := { topWord := 3, hash64 := hId }
def chipMul : Chip := { topWord := 7, hash64 := hMul }

def hello : Bytes := [0x68, 0x65, 0x6C, 0x6C, 0x6F, 0x2C, 0x20, 0x77, 0x6F, 0x72, 0x6C, 0x64]
def bloom : Bytes := [0x62, 0x6C, 0x6F, 0x6F, 0x6D]

theorem test_hId_hello : hId hello = 0x77202C6FD0D8D7D7 := by decide
theorem test_hMul_bloom : hMul bloom = 0x60ED2CC00EF75C0A := by decide

/-! ### Small states and what a test looks at -/

def st (wordCount probeCount : Word) (bits : Memory) : State :=
  { State.reset with wordCount := wordCount, probeCount := probeCount, bits := bits }

/-- What a command left: the responses, the store, the hash requests. -/
def seen : Answer → Option (List Response × Memory × List Bytes)
  | .next t => some (t.responses, t.bits, t.hashRequests)
  | .fault _ => none
  | .refused _ => none

/-- The architectural counts a command left. -/
def counts : Answer → Option (Word × Word)
  | .next t => some (t.wordCount, t.probeCount)
  | .fault _ => none
  | .refused _ => none

/-- The indices the generator derives. -/
def indices (c : Chip) (payload : Bytes) (t n : Nat) : List Nat := (List.range n).map (probeIndex c payload t)

/-! ### Primitives (95_test_vectors.md 2.1) and the index map (2.2) -/

theorem test_bswap64 : bswap64 0x0102030405060708 = 0x0807060504030201 ∧ bswap64 0x61 = 0x6100000000000000 := by decide
theorem test_le64 : le64 0x0102030405060708 = [0x08, 0x07, 0x06, 0x05, 0x04, 0x03, 0x02, 0x01] := by decide
theorem test_clamp : clamp 0 = 1 ∧ clamp 1 = 1 ∧ clamp 7 = 7 := by decide
theorem test_index_145 : bucketOf 145 = 2 ∧ bitOffsetOf 145 = 17 ∧ bitMask 17 = 0x20000 := by decide
theorem test_index_63 : bucketOf 63 = 0 ∧ bitMask (bitOffsetOf 63) = 0x8000000000000000 := by decide

/-! ### SETBIT, TESTBIT (95_test_vectors.md 2.3) -/

theorem test_setBit_98 : (setBit (98 : Fin 128) (st 2 1 [(0, 1)])).bits = [(0, 1), (1, 0x400000000)] := by decide
theorem test_setBit_127 :
    (setBit (127 : Fin 128) (st 2 1 [(0, 1), (1, 0x400000000)])).bits = [(0, 1), (1, 0x8000000400000000)] := by decide
theorem test_testBit :
    (testBit (98 : Fin 128) (st 2 1 [(0, 1), (1, 0x400000000)])).1 = true ∧
    (testBit (97 : Fin 128) (st 2 1 [(0, 1), (1, 0x400000000)])).1 = false := by decide

/-! ### Decoding: descriptors written out field by field, ARG1, ARG0, RSV, OPCODE (30_encoding.md R48, R51;
95_test_vectors.md 2.4) -/

theorem test_decode_create :
    decode ⟨(3 : BitVec 64) ++ (2 : BitVec 64) ++ (0 : BitVec 56) ++ 0b00000001#8, []⟩ = .ok (.create 2 3) := by decide
theorem test_decode_add :
    decode ⟨(0x5678 : BitVec 64) ++ (0x1234 : BitVec 64) ++ (0 : BitVec 56) ++ 0b00000010#8, [0x61]⟩ = .ok (.add [0x61]) := by decide
theorem test_decode_contains :
    decode ⟨(0 : BitVec 64) ++ (0 : BitVec 64) ++ (0 : BitVec 56) ++ 0b00000011#8, []⟩ = .ok (.contains []) := by decide
theorem test_decode_capacity :
    decode ⟨(9 : BitVec 64) ++ (9 : BitVec 64) ++ (0 : BitVec 56) ++ 0b00000100#8, [0xFF]⟩ = .ok .capacity := by decide
theorem test_decode_probecount :
    decode ⟨(0 : BitVec 64) ++ (0 : BitVec 64) ++ (0 : BitVec 56) ++ 0b00000101#8, []⟩ = .ok .probecount := by decide
theorem test_decode_rdword :
    decode ⟨(7 : BitVec 64) ++ (1 : BitVec 64) ++ (0 : BitVec 56) ++ 0b00000110#8, []⟩ = .ok (.rdword 1) := by decide
theorem test_decode_zero : decode ⟨0, []⟩ = .error (.unassignedOpcode 0) := by decide
theorem test_decode_rsv_bit_55 :
    decode ⟨(1 : BitVec 64) ++ (1 : BitVec 64) ++ (0x80000000000000 : BitVec 56) ++ 0b00000001#8, []⟩ =
      .error (.reservedFieldNonzero 0x80000000000000) := by decide
theorem test_decodeTableWord : decodeTableWord 192 (1 + 2 ^ 64 * 2 + 2 ^ 128 * 3) = some (.create 2 3) ∧
    decodeTableWord 64 5 = some .probecount ∧ decodeTableWord 192 0x102 = none := by decide

/-- The opcode map assigns no number twice (R51). -/
theorem test_opcodes_distinct : (Opcode.all.map Opcode.code).Nodup := by decide

/-! ### Well-formedness: for each check of a frame, a frame that fails it alone (30_encoding.md R54, R55, R58) -/

theorem test_frame_illegal : (Frame.ofWords 7 5 5 [0x7A, 0x7A]).check = some (.illegal (.unassignedOpcode 7)) := by decide
theorem test_frame_ignoredArg0 : (Frame.ofWords 2 1 0 [0x61]).check = some .ignoredArg0 := by decide
theorem test_frame_ignoredArg1 : (Frame.ofWords 6 1 7 []).check = some .ignoredArg1 := by decide
theorem test_frame_ignoredPayload : (Frame.ofWords 4 0 0 [0xFF]).check = some .ignoredPayload := by decide
theorem test_frame_wellFormed : (encode (.create 2 3)).wellFormed = true ∧ (encode (.add [0x61])).wellFormed = true := by decide

/-! ### CREATE, CAPACITY, PROBECOUNT, RDWORD (95_test_vectors.md 2.6, W_MAX = 4) -/

theorem test_create_clamps : counts (createOn chipId 0 9 (st 2 2 [(0, 1)])) = some (1, 9) := by decide
theorem test_create_same_size_clears :
    seen (createOn chipId 2 2 (st 2 2 [(0, 1), (1, 0x400000000)])) = some ([⟨.ok, 0⟩], [], []) := by decide
theorem test_create_at_limit : counts (createOn chipId 4 0 State.reset) = some (4, 1) := by decide
theorem test_create_over_limit :
    createOn chipId 5 1 (st 2 2 [(0, 1)]) = .next { st 2 2 [(0, 1)] with responses := [⟨.errCapacity, 0⟩] } := by rfl
theorem test_capacity_in_words : seen (exec .capacity (st 3 4 [])) = some ([⟨.ok, 3⟩], [], []) := by decide
theorem test_probecount : seen (exec .probecount (st 3 4 [])) = some ([⟨.ok, 4⟩], [], []) := by decide
theorem test_rdword_1 :
    seen (exec (.rdword 1) (st 2 2 [(0, 1), (1, 0x400000000)])) =
      some ([⟨.ok, 0x400000000⟩], [(0, 1), (1, 0x400000000)], []) := by decide
theorem test_rdword_at_wordCount : seen (exec (.rdword 2) (st 2 2 [])) = some ([⟨.errRange, 0⟩], [], []) := by decide

/-! ### Probe sequences (95_test_vectors.md 2.5, vectors V1 to V8) -/

theorem test_V1_little_endian_counter : indices chipId [0x61] 64 3 = [0, 34, 35] := by decide
theorem test_V3_modulus_192 : indices chipId hello 192 3 = [119, 24, 25] := by decide
theorem test_V4_counter_wraps : indices chipId (List.replicate 8 0xFF) 64 3 = [63, 0, 1] := by decide
theorem test_V6_probe_0_not_rehashed : indices chipMul [0x61] 128 3 = [115, 46, 67] := by decide
theorem test_V7 : indices chipMul bloom 192 4 = [32, 39, 124, 145] := by decide

/-! ### ADD and CONTAINS (95_test_vectors.md section 3: P1 commands 2, 4, 5; P5 command 9; V2) -/

theorem test_add_P1 :
    seen (addOn chipId [0x61] (st 1 3 [])) =
      some ([⟨.ok, 0⟩], [(0, 0x0000000C00000001)],
        [[0x61], [0x62, 0, 0, 0, 0, 0, 0, 0], [0x63, 0, 0, 0, 0, 0, 0, 0]]) := by decide
theorem test_add_P5_wraps :
    seen (addOn chipId (List.replicate 8 0xFF) (st 1 3 [])) =
      some ([⟨.ok, 0⟩], [(0, 0x8000000000000003)],
        [List.replicate 8 0xFF, [0, 0, 0, 0, 0, 0, 0, 0], [1, 0, 0, 0, 0, 0, 0, 0]]) := by decide
theorem test_contains_P1_hit :
    (seen (containsOn chipId [0x61] (st 1 3 [(0, 0x0000000C00000001)]))).map Prod.fst = some [⟨.ok, 1⟩] := by decide
theorem test_contains_P1_short_circuits :
    seen (containsOn chipId [0x63] (st 1 3 [(0, 0x0000000C00000001)])) =
      some ([⟨.ok, 0⟩], [(0, 0x0000000C00000001)], [[0x63], [0x64, 0, 0, 0, 0, 0, 0, 0]]) := by decide
theorem test_contains_empty_on_reset :
    seen (containsOn chipId [] State.reset) = some ([⟨.ok, 0⟩], [], [[]]) := by decide

/-- R100, by hand: with two requests answered, V1's third request waits and bits 0 and 34 are set. -/
theorem test_add_silent_hash_unit :
    (match addOn chipId [0x61] { st 1 3 [] with hashUnit := .answersOnly 2 } with
     | .next t => decide (t.bits = [(0, 0x400000001)] ∧ t.outstanding = some [0x63, 0, 0, 0, 0, 0, 0, 0] ∧ t.responses = [])
     | _ => false) = true := by decide

/-! ### The step -/

/-- P2 command 1 after reset, through the port. -/
theorem test_step_capacity :
    step (State.reset.withFetchWord 192 4) = .next { State.reset with responses := [⟨.ok, 1⟩] } := by rfl
/-- P4 command 5: ADD with RSV = 1. -/
theorem test_step_illegal :
    step (State.reset.withFetchWord 192 0x102) = .next { State.reset with responses := [⟨.errIllegal, 0⟩] } := by rfl
theorem test_step_create_00 :
    step (State.reset.withFetchWord 192 1) = .next { State.reset with responses := [⟨.ok, 0⟩] } := by rfl
theorem test_step_add_runs : step (State.reset.withFetchWord 192 2) = exec (.add []) State.reset := by rfl
theorem test_step_idle : step State.reset = .next State.reset := by rfl
theorem test_memory_wf_reset : State.reset.bits.wf = true := by decide

/-! ### The host's count of responses (43_host_pseudo.md R84, R87, by hand): commands still offered are answered first -/

theorem test_ask_behind_another_command :
    (match ask .probecount { st 3 4 [] with offered := [encode .capacity], responses := [⟨.ok, 9⟩] } with
     | .next (r, t) => decide (r = some ⟨.ok, 4⟩ ∧ t.responses = [⟨.ok, 9⟩, ⟨.ok, 3⟩, ⟨.ok, 4⟩] ∧ t.offered = [])
     | _ => false) = true := by decide
theorem test_rawBits_behind_another_command :
    (match rawBits { st 2 1 [(1, 5)] with offered := [encode (.rdword 7)] } with
     | .next (ws, _) => decide (ws = some [0, 5])
     | _ => false) = true := by decide

/-- The reset that comes before the response ends the wait (70_reset_and_hazards.md R104, R105). -/
theorem test_ask_cut_by_reset :
    (match ask .capacity { st 3 4 [] with resetLine := [.asserted [encode .probecount]] } with
     | .next (r, t) => decide (r = none ∧ t.responses = [] ∧ t.offered = [encode .probecount])
     | _ => false) = true := by decide

/-! ### Witnesses: a concrete state and operands for the hypotheses of each obligation -/

/-- One word, every bit set. -/
def full : State := st 1 1 [(0, BitVec.allOnes 64)]

theorem wMax_pos : 1 ≤ Config.chip.wMax := Nat.le_add_left 1 _

theorem wMax_lt : Config.chip.wMax < 2 ^ 58 := by
  have := Config.chip.topWord.isLt
  unfold Chip.wMax
  omega

theorem inv_reset : Inv State.reset := ⟨by decide, wMax_pos, by decide, by decide, by decide⟩
theorem inv_full : Inv full := ⟨by decide, wMax_pos, by decide, by decide, by decide⟩
theorem ready_reset : Ready State.reset := ⟨rfl, rfl, rfl⟩
theorem ready_full : Ready full := ⟨rfl, rfl, rfl⟩
theorem released_of_nil {s : State} (h : s.resetLine = []) : s.resetReleased := by
  intro o r h'
  rw [h] at h'
  cases h'

theorem full_bit {x : Nat} (hx : x < 64) : full.bits.bit x = true := by
  have h : x / 64 = 0 := by omega
  have h' : x % 64 = x := by omega
  show (Memory.read [(0, BitVec.allOnes 64)] (x / 64)).getLsbD (x % 64) = true
  rw [h, h', show Memory.read [(0, BitVec.allOnes 64)] 0 = BitVec.allOnes 64 from rfl, BitVec.getLsbD_allOnes]
  simpa using hx

theorem full_all (payload : Bytes) : allProbesSet payload full :=
  fun i _ => full_bit (probeIndex_lt (t := 64) (by decide) i)

theorem witness_ResetInputReturnsToTheResetState :
    ∃ (s : State) (offered : List Frame) (rest : List ResetInput), s.resetLine = .asserted offered :: rest ∧
      s.outstanding = some [0x61] :=
  ⟨{ full with resetLine := [.asserted [encode .capacity], .released], outstanding := some [0x61] },
    [encode .capacity], [.released], rfl, rfl⟩

/-- Both clauses, each at its boundary: W_MAX itself, and W_MAX + 1. -/
theorem witness_CreateMakesAZeroedFilterOrAnswersCapacity :
    max (BitVec.ofNat 64 Config.chip.wMax).toNat 1 = Config.chip.wMax ∧
    max (BitVec.ofNat 64 (Config.chip.wMax + 1)).toNat 1 = Config.chip.wMax + 1 := by
  have h1 := wMax_pos
  have h2 := wMax_lt
  simp only [BitVec.toNat_ofNat]
  omega

theorem witness_AddSetsExactlyTheProbedBits :
    1 ≤ State.reset.wordCount.toNat ∧ State.reset.hashUnit = .answersAll := by decide

/-- The clause where every probed bit is set, and the clause where probe 0 misses. -/
theorem witness_ContainsAnswersWhetherEveryProbedBitIsSet :
    (1 ≤ full.wordCount.toNat ∧ full.hashUnit = .answersAll ∧ allProbesSet [0x61] full) ∧
    (1 ≤ State.reset.wordCount.toNat ∧ State.reset.hashUnit = .answersAll ∧ 0 < State.reset.probeCount.toNat ∧
      State.reset.bits.bit (indexAt [0x61] State.reset 0) = false ∧
      ∀ i, i < 0 → State.reset.bits.bit (indexAt [0x61] State.reset i) = true) :=
  ⟨⟨by decide, rfl, full_all _⟩, by decide, rfl, by decide, by simp [Memory.bit, State.reset, Memory.read], by simp⟩

/-- The last index in range, and the first out of it. -/
theorem witness_RdwordReadsAWordOrAnswersRange :
    (0 : Word).toNat < State.reset.wordCount.toNat ∧ State.reset.wordCount.toNat ≤ (1 : Word).toNat := by decide

theorem witness_OnlyAZeroWordCountStopsACommand : (st 0 1 []).wordCount = 0 ∧ State.reset.wordCount ≠ 0 := by decide

/-- R79, R80, R63 say so of every state: with WORDCOUNT = 0 too, a command that derives no index is answered. -/
theorem test_capacity_zero : seen (exec .capacity (st 0 1 [])) = some ([⟨.ok, 0⟩], [], []) := by decide

/-- The last bit of the store (SETBIT, TESTBIT). -/
theorem witness_SetBitWritesOneWord : ∃ (s : State) (x : Fin s.totalBits), s.wordCount.toNat ≤ Config.chip.wMax ∧ x.val = 63 :=
  ⟨State.reset, ⟨63, by decide⟩, wMax_pos, rfl⟩
theorem witness_TestBitReadsOneBit : ∃ (s : State) (x : Fin s.totalBits), s.wordCount.toNat ≤ Config.chip.wMax ∧ x.val = 0 :=
  ⟨State.reset, ⟨0, by decide⟩, wMax_pos, rfl⟩

/-- Two indices that differ, in a canonical store, the second set. -/
theorem witness_TheStoreObeysItsLaws :
    ∃ (s : State) (x y : Fin s.totalBits), y ≠ x ∧ s.bits.wf = true ∧ (testBit y s).1 = true :=
  ⟨st 2 1 [(1, 0x400000000)], ⟨0, by decide⟩, ⟨98, by decide⟩, by decide, by decide, by decide⟩

/-- The first and the last index, and the largest H that is its own IDX. -/
theorem witness_TheIndexMapStaysInTheStore :
    0 < State.reset.totalBits ∧ 0 < State.reset.totalBits ∧ 63 < State.reset.totalBits ∧
      (63 : Word).toNat < State.reset.totalBits := by decide
theorem witness_BytePrimitivesOrderTheBytes : (7 : Nat) < 8 := by decide
theorem witness_TheGeneratorFollowsTheClosedForm :
    0 < State.reset.totalBits ∧ 3 < 2 ^ 64 ∧ State.reset.hashUnit = .answersAll := by decide
theorem witness_TheIndicesDoNotDependOnTheStore :
    1 ≤ (1 : Word).toNat ∧ full.wordCount = 1 ∧ full.probeCount = 1 ∧ full.hashUnit = .answersAll ∧
    State.reset.wordCount = 1 ∧ State.reset.probeCount = 1 ∧ State.reset.hashUnit = .answersAll := by decide
theorem witness_DecodingAnEncodedCommandGivesItBack : (Instr.create 2 3).wellFormed = true := rfl
theorem witness_EncodingADecodedFrameGivesItBack : (Frame.ofWords 6 1 0 []).wellFormed = true := by decide

/-- Frames that differ in an ignored part, one pair for each hypothesis about a used part. -/
theorem witness_IgnoredPartsHaveNoEffect :
    ((Frame.ofWords 1 2 3 []).w0 = (Frame.ofWords 1 2 3 [0xFF]).w0 ∧ (Frame.ofWords 1 2 3 []).w0 = 1 ∧
      (Frame.ofWords 1 2 3 []).arg0 = (Frame.ofWords 1 2 3 [0xFF]).arg0 ∧
      (Frame.ofWords 1 2 3 []).arg1 = (Frame.ofWords 1 2 3 [0xFF]).arg1) ∧
    ((Frame.ofWords 2 1 1 [0x61]).w0 = (Frame.ofWords 2 0 0 [0x61]).w0 ∧
      (Frame.ofWords 2 1 1 [0x61]).payload = (Frame.ofWords 2 0 0 [0x61]).payload) ∧
    ((Frame.ofWords 6 1 7 []).w0 = (Frame.ofWords 6 1 0 [1]).w0 ∧
      (Frame.ofWords 6 1 7 []).arg0 = (Frame.ofWords 6 1 0 [1]).arg0) := by decide

/-- A free engine with one frame offered. -/
def one (i : Instr) : State := { State.reset with offered := [encode i] }

theorem witness_AStepRunsTheDecodedCommand :
    (one (.add [0x61])).outstanding = none ∧ (one (.add [0x61])).resetReleased ∧
      (one (.add [0x61])).offered = encode (.add [0x61]) :: [] ∧ decode (encode (.add [0x61])) = .ok (.add [0x61]) ∧
      (Instr.add [0x61]).wellFormed = true :=
  ⟨rfl, released_of_nil rfl, rfl, by decide, rfl⟩

theorem witness_AnIllegalFrameAnswersIllegal :
    let f := Frame.ofWords 0x102 0 0 [0x61]
    let s := { State.reset with offered := [f] }
    s.outstanding = none ∧ s.resetReleased ∧ s.offered = f :: [] ∧
      f.w0 ≠ 1 ∧ f.w0 ≠ 2 ∧ f.w0 ≠ 3 ∧ f.w0 ≠ 4 ∧ f.w0 ≠ 5 ∧ f.w0 ≠ 6 :=
  ⟨rfl, released_of_nil rfl, rfl, by decide, by decide, by decide, by decide, by decide, by decide⟩

theorem witness_AnIdleEngineKeepsItsState :
    State.reset.outstanding = none ∧ State.reset.resetReleased ∧ State.reset.offered = [] :=
  ⟨rfl, released_of_nil rfl, rfl⟩

theorem witness_AnUnansweredRequestHoldsTheEngine :
    let s := { one .capacity with outstanding := some [0x61] }
    s.outstanding = some [0x61] ∧ s.resetReleased :=
  ⟨rfl, released_of_nil rfl⟩

theorem witness_ASilentHashUnitStopsAnAddMidway :
    let s := { st 1 3 [] with hashUnit := .answersOnly 2 }
    1 ≤ s.wordCount.toNat ∧ s.hashUnit = .answersOnly 2 ∧ 2 < s.probeCount.toNat := by decide

/-- A first probe that meets a set bit, and a second request that is never answered. -/
theorem witness_ASilentHashUnitStopsAContainsMidway :
    let s := { st 1 3 [(0, BitVec.allOnes 64)] with hashUnit := .answersOnly 1 }
    1 ≤ s.wordCount.toNat ∧ s.hashUnit = .answersOnly 1 ∧ 1 < s.probeCount.toNat ∧
      ∀ i, i < 1 → s.bits.bit (indexAt [0x61] s i) = true :=
  ⟨by decide, rfl, by decide, fun i _ => full_bit (probeIndex_lt (t := 64) (by decide) i)⟩

theorem witness_EveryFrameGetsExactlyOneResponse :
    Inv (one .capacity) ∧ (one .capacity).outstanding = none ∧ (one .capacity).hashUnit = .answersAll ∧
      (one .capacity).resetReleased ∧ (one .capacity).offered = encode .capacity :: [] :=
  ⟨⟨by decide, wMax_pos, by decide, by decide, by decide⟩, rfl, rfl, released_of_nil rfl, rfl⟩

theorem witness_ErrorResponsesChangeNothing :
    ∃ (f : Frame) (s t : State) (r : Response), accept f s = .next t ∧ t.responses = s.responses ++ [r] ∧ r.status ≠ .ok :=
  ⟨encode (.rdword 1), State.reset, respond .errRange 0 State.reset, ⟨.errRange, 0⟩, rfl, rfl, by decide⟩

theorem witness_EveryStepKeepsTheInvariant :
    ∃ t, Inv (one .capacity) ∧ step (one .capacity) = .next t :=
  ⟨respond .ok 1 State.reset, witness_EveryFrameGetsExactlyOneResponse.1, rfl⟩

theorem witness_EveryRunIsSafe : Inv full := inv_full

/-- A lifetime in which a CAPACITY is taken. -/
theorem witness_BitsOnlyRiseWithinALifetime :
    ∃ (s t : State), s.resetLine = [] ∧ (∀ f ∈ s.offered, ¬ endsLifetime f) ∧ s.offered ≠ [] ∧ run 1 s = .next t := by
  refine ⟨one .capacity, respond .ok 1 State.reset, rfl, ?_, by decide, rfl⟩
  intro f hf
  simp only [one, List.mem_singleton] at hf
  subst hf
  rintro ⟨w, k, h, -⟩
  rw [show decode (encode .capacity) = .ok .capacity by decide] at h
  cases h

/-- A command that answers a next state, and a run of one further step after it. -/
theorem run_after {i : Instr} {s t : State} (hi : Inv s) (h : exec i s = .next t) : ∃ u, run 1 t = .next u := by
  have ht := exec_keeps_inv hi h
  rcases step_cases t with ⟨o, r, -, h'⟩ | ⟨-, h'⟩ | ⟨-, -, f, rest, -, h'⟩
  · exact ⟨_, by rw [run, h']; rfl⟩
  · exact ⟨_, by rw [run, h']; rfl⟩
  · match hd : decode f with
    | .error e => exact ⟨_, by rw [run, h', accept_error hd]; rfl⟩
    | .ok j =>
      obtain ⟨u, hu⟩ := exec_next (s := { t with offered := rest, resetLine := t.resetLine.tail }) j ht.wordCount_pos
      exact ⟨u, by rw [run, h', accept_ok hd, hu]; rfl⟩

theorem witness_NoFalseNegatives :
    ∃ (t u : State), Inv State.reset ∧ Ready State.reset ∧ exec (.add [0x61]) State.reset = .next t ∧
      (∀ f ∈ t.offered, ¬ endsLifetime f) ∧ run 1 t = .next u := by
  obtain ⟨t, ht⟩ := exec_next (s := State.reset) (.add [0x61]) (by decide)
  obtain ⟨u, hu⟩ := run_after inv_reset ht
  refine ⟨t, u, inv_reset, ready_reset, ht, ?_, hu⟩
  rw [(exec_effect ht).offered]
  simp [State.reset]

theorem witness_APositiveAnswerStaysPositive :
    ∃ (t u : State), Inv full ∧ Ready full ∧ exec (.contains [0x61]) full = .next t ∧
      t.responses = full.responses ++ [⟨.ok, 1⟩] ∧ (∀ f ∈ t.offered, ¬ endsLifetime f) ∧ run 1 t = .next u := by
  obtain ⟨w, m, h1, -, -, h4⟩ := containsOn_answered (c := Config.chip) (payload := [0x61]) (s := full) (by decide) rfl
  obtain ⟨u, hu⟩ := run_after (i := .contains [0x61]) inv_full h1
  refine ⟨_, u, inv_full, ready_full, h1, ?_, ?_, hu⟩
  · rcases h4 with ⟨h5, -, -⟩ | ⟨-, h6, h7⟩
    · rw [h5]; rfl
    · have : full.bits.bit (probeIndex Config.chip [0x61] full.totalBits (m - 1)) = true :=
        full_bit (probeIndex_lt (t := 64) (by decide) _)
      rw [this] at h7
      cases h7
  · intro f hf
    simp [full, st, State.reset] at hf

theorem witness_AddingTwiceIsAddingOnce : Inv full ∧ full.hashUnit = .answersAll := ⟨inv_full, rfl⟩
theorem witness_AddsCommute : Inv State.reset ∧ State.reset.hashUnit = .answersAll := ⟨inv_reset, rfl⟩
theorem witness_QueriesArePure :
    1 ≤ full.wordCount.toNat ∧ full.hashUnit = .answersAll ∧
    ∀ i ∈ [Instr.contains [0x61], .capacity, .probecount, .rdword 0],
      (∃ p, i = .contains p) ∨ i = .capacity ∨ i = .probecount ∨ ∃ x, i = .rdword x := by
  refine ⟨by decide, rfl, ?_⟩
  simp

/-- Two states with one architectural triple and different working registers, responses and requests. -/
theorem witness_OnlyTheArchitecturalTripleMatters :
    ∃ s : State, sameArch full s ∧ s.work ≠ full.work ∧ s.responses ≠ full.responses ∧ 1 ≤ full.wordCount.toNat ∧
      full.hashUnit = .answersAll ∧ s.hashUnit = .answersAll :=
  ⟨{ full with work := { full.work with base := 5, hit := true }, responses := [⟨.ok, 7⟩] },
    ⟨rfl, rfl, rfl⟩, by decide, by decide, by decide, rfl, rfl⟩

/-- `full` with an ADD still unanswered on the port. -/
def fullBehindAnAdd : State := send [.add [0x61]] full

theorem inv_fullBehindAnAdd : Inv fullBehindAnAdd := ⟨by decide, wMax_pos, by decide, by decide, by decide⟩
theorem ready_fullBehindAnAdd : Ready fullBehindAnAdd := ⟨rfl, rfl, rfl⟩

theorem witness_AddAllAddsEveryItem :
    Inv fullBehindAnAdd ∧ Ready fullBehindAnAdd ∧ fullBehindAnAdd.offered ≠ [] ∧ full.offered = [] :=
  ⟨inv_fullBehindAnAdd, ready_fullBehindAnAdd, by decide, rfl⟩

/-- Behind an unanswered ADD; and, on an empty port, a list that is all there and one whose first item misses. -/
theorem witness_ContainsAllIsTheConjunction :
    (Inv fullBehindAnAdd ∧ Ready fullBehindAnAdd) ∧
    (Inv full ∧ Ready full ∧ run full.offered.length full = .next full ∧
      ∀ p ∈ [[0x61], ([] : Bytes)], allProbesSet p full) ∧
    (Inv State.reset ∧ Ready State.reset ∧ run State.reset.offered.length State.reset = .next State.reset ∧
      ¬ allProbesSet [0x61] State.reset) :=
  ⟨⟨inv_fullBehindAnAdd, ready_fullBehindAnAdd⟩, ⟨inv_full, ready_full, rfl, fun p _ => full_all p⟩,
    inv_reset, ready_reset, rfl, fun h => by
      have := h 0 (by decide)
      simp [Memory.bit, State.reset, Memory.read] at this⟩

theorem witness_RawBitsReadsTheWholeStore : Inv fullBehindAnAdd ∧ Ready fullBehindAnAdd :=
  ⟨inv_fullBehindAnAdd, ready_fullBehindAnAdd⟩

/-- One state for each clause: an unanswered ADD on the port, and a hash request that is never answered. -/
theorem witness_AskGetsItsOwnResponse :
    (Inv fullBehindAnAdd ∧ Ready fullBehindAnAdd) ∧
    (let s := { fullBehindAnAdd with outstanding := some [0x61] }
     s.outstanding ≠ none ∧ s.resetLine = []) :=
  ⟨⟨inv_fullBehindAnAdd, ready_fullBehindAnAdd⟩, by decide, rfl⟩

theorem witness_FramesNotYetAcceptedHaveNoEffect :
    (one .capacity).resetLine = [] ∧ 1 ≤ (one .capacity).offered.length ∧
      run 1 (one .capacity) = .next (respond .ok 1 State.reset) := ⟨rfl, by decide, rfl⟩

theorem witness_ACreatedStoreListsNothing : max (0 : Word).toNat 1 ≤ Config.chip.wMax := wMax_pos
theorem witness_CreateEstTakesBitsAsWords : max (1 : Word).toNat 1 ≤ Config.chip.wMax := wMax_pos

end Sys2Proof.Tests
end

namespace Sys2Proof.Machine

/-- R9 spells out the eight bytes; this is the same list by its byte index. -/
theorem le64_eq_map_byteOf (v : Word) : le64 v = (List.range 8).map (byteOf v) := rfl

/-- Settles O14: `byteOf` is the obligation's byte, and the model's laws say where `bswap64` puts each one. -/
theorem bytePrimitivesOrderTheBytes : Obligations.BytePrimitivesOrderTheBytes :=
  fun v => ⟨le64_eq_map_byteOf v, byteOf_bswap64 v, bswap64_bswap64 v⟩

end Sys2Proof.Machine

/-! The state and the port (10_state.md): the reset state, what stops a command, the invariant of every step, what a
filter lifetime keeps, and what neither the working registers nor the waiting frames can change. -/

namespace Sys2Proof.Machine

variable {c : Chip} {payload : Bytes} {s t u : State}

/-! ### Facts about the commands and the port that the statements below share -/

/-- The store has room for one word at least (00_scope.md R5). -/
theorem one_le_wMax (c : Chip) : 1 ≤ c.wMax := Nat.le_add_left 1 _

/-- RDWORD from WORDCOUNT upward (40_bitstore.md R63). -/
theorem exec_rdword_beyond {index : Word} (h : s.wordCount.toNat ≤ index.toNat) :
    exec (.rdword index) s = .next (raise .range s) := if_pos h

/-- RDWORD below WORDCOUNT (40_bitstore.md R63). -/
theorem exec_rdword_below {index : Word} (h : index.toNat < s.wordCount.toNat) :
    exec (.rdword index) s = .next (respond .ok (s.bits.read index.toNat) s) := if_neg (by omega)

theorem exec_create_next (a k : Word) (s : State) : ∃ t, exec (.create a k) s = .next t := by
  rcases Nat.lt_or_ge Config.chip.wMax (max a.toNat 1) with h | h
  · exact ⟨_, createOn_refused h⟩
  · exact ⟨_, createOn_fits h⟩

theorem exec_rdword_next (index : Word) (s : State) : ∃ t, exec (.rdword index) s = .next t := by
  rcases Nat.lt_or_ge index.toNat s.wordCount.toNat with h | h
  · exact ⟨_, exec_rdword_below h⟩
  · exact ⟨_, exec_rdword_beyond h⟩

/-- Handling a frame leaves the frames behind it and the reset input alone. -/
theorem accept_keeps_port {f : Frame} (h : accept f s = .next t) :
    t.offered = s.offered ∧ t.resetLine = s.resetLine := by
  rcases accept_cases h with ⟨i, -, hi⟩ | ⟨e, -, rfl⟩
  · exact ⟨(exec_effect hi).offered, (exec_effect hi).resetLine⟩
  · exact ⟨rfl, rfl⟩

/-- With no reset to come, a step changes nothing or handles the first frame offered. -/
theorem step_of_noReset (hl : s.resetLine = []) (h : step s = .next t) :
    t = s ∨ ∃ f rest, s.offered = f :: rest ∧ accept f (s.offer rest) = .next t := by
  rcases step_cases s with ⟨o, r, hr, -⟩ | ⟨-, hs⟩ | ⟨-, -, f, rest, hf, hs⟩
  · rw [hl] at hr; cases hr
  · rw [hs] at h
    cases h
    exact .inl (by rw [advanceReset, hl, List.tail_nil, ← hl])
  · refine .inr ⟨f, rest, hf, ?_⟩
    rw [hs, hl, List.tail_nil, ← hl] at h
    exact h

/-- What every step keeps, every run keeps. -/
theorem run_keeps {P : State → Prop} (hstep : ∀ s t, P s → step s = .next t → P t) {n : Nat} (hs : P s)
    (h : run n s = .next t) : P t := by
  induction n generalizing s with
  | zero => cases h; exact hs
  | succ n ih =>
    rw [run] at h
    match hu : step s with
    | .next u => rw [hu] at h; exact ih (hstep s u hs hu) h
    | .fault r => rw [hu] at h; cases h
    | .refused r => rw [hu] at h; cases h

/-! ### The invariant -/

/-- The invariant speaks of the architectural triple alone. -/
theorem Inv.of_sameArch (hi : Inv s) (h : sameArch s t) : Inv t := by
  obtain ⟨hw, hp, hb⟩ := h
  exact hi.of_arch hw hp (xs := []) (by simp) hb

theorem State.reset_inv : Inv State.reset where
  wordCount_pos := by decide
  wordCount_le := one_le_wMax Config.chip
  probeCount_pos := by decide
  bits_wf := rfl
  bits_below := rfl

theorem step_keeps_inv (hi : Inv s) (h : step s = .next t) : Inv t := by
  rcases step_cases s with ⟨o, r, -, hs⟩ | ⟨-, hs⟩ | ⟨-, -, f, rest, -, hs⟩
  · rw [hs] at h
    cases h
    exact State.reset_inv.of_sameArch ⟨rfl, rfl, rfl⟩
  · rw [hs] at h
    cases h
    exact hi.of_sameArch ⟨rfl, rfl, rfl⟩
  · rw [hs] at h
    have hi' : Inv { s with offered := rest, resetLine := s.resetLine.tail } := hi.of_sameArch ⟨rfl, rfl, rfl⟩
    exact accept_keeps_inv hi' h

/-- Settles O32: reset gives the reset state's triple, a waiting step keeps the triple, and a handled frame keeps the
invariant. -/
theorem everyStepKeepsTheInvariant : Obligations.EveryStepKeepsTheInvariant :=
  fun _ _ => step_keeps_inv

/-- Settles O31. -/
theorem theInvariantHoldsAtReset : Obligations.TheInvariantHoldsAtReset := State.reset_inv

/-! ### Within a filter lifetime -/

/-- Setting bits clears none. -/
theorem Memory.read_and_read_setBits (m : Memory) (xs : List Nat) (w : Nat) :
    m.read w &&& (m.setBits xs).read w = m.read w := by
  apply BitVec.eq_of_getLsbD_eq
  intro j hj
  have hbit := Memory.bit_setBits m xs (w * 64 + j)
  simp only [Memory.bit, bucketOf, bitOffsetOf, show (w * 64 + j) / 64 = w by omega,
    show (w * 64 + j) % 64 = j by omega] at hbit
  rw [BitVec.getLsbD_and, hbit]
  cases (m.read w).getLsbD j <;> rfl

/-- From `s` to `t` the two counts stay and no bit is cleared (10_state.md R24). -/
structure Rises (s t : State) : Prop where
  wordCount : t.wordCount = s.wordCount
  probeCount : t.probeCount = s.probeCount
  words : ∀ w, s.bits.read w &&& t.bits.read w = s.bits.read w

theorem Rises.refl (s : State) : Rises s s := ⟨rfl, rfl, fun _ => BitVec.and_self⟩

theorem Rises.trans (h : Rises s t) (h' : Rises t u) : Rises s u where
  wordCount := h'.wordCount.trans h.wordCount
  probeCount := h'.probeCount.trans h.probeCount
  words w := calc
    s.bits.read w &&& u.bits.read w
      = s.bits.read w &&& t.bits.read w &&& u.bits.read w := by rw [h.words]
    _ = s.bits.read w &&& t.bits.read w := by rw [BitVec.and_assoc, h'.words]
    _ = s.bits.read w := h.words w

/-- No reset is to come, and no frame on the port ends the lifetime. -/
structure LifetimeGoesOn (s : State) : Prop where
  noReset : s.resetLine = []
  frames : ∀ f ∈ s.offered, ¬ endsLifetime f

/-- A frame that does not end the lifetime only sets bits. -/
theorem accept_rises {f : Frame} (hf : ¬ endsLifetime f) (h : accept f s = .next t) : Rises s t := by
  rcases accept_cases h with ⟨i, hd, hi⟩ | ⟨e, -, rfl⟩
  · rcases (exec_effect hi).arch with ⟨a, k, rfl, hfits, -⟩ | ⟨hw, hp, xs, -, hb⟩
    · exact absurd ⟨a, k, hd, hfits⟩ hf
    · exact ⟨hw, hp, fun w => by rw [hb, Memory.read_and_read_setBits]⟩
  · exact ⟨rfl, rfl, fun _ => BitVec.and_self⟩

theorem step_within_lifetime (hs : LifetimeGoesOn s) (h : step s = .next t) : LifetimeGoesOn t ∧ Rises s t := by
  rcases step_of_noReset hs.noReset h with rfl | ⟨f, rest, hf, ha⟩
  · exact ⟨hs, Rises.refl t⟩
  · obtain ⟨hoffered, hreset⟩ := accept_keeps_port ha
    have hframes := hs.frames
    rw [hf] at hframes
    have hrise := accept_rises (hframes f List.mem_cons_self) ha
    refine ⟨⟨hreset.trans hs.noReset, fun g hg => hframes g (List.mem_cons_of_mem f ?_)⟩, ?_⟩
    · rwa [hoffered] at hg
    · exact ⟨hrise.wordCount, hrise.probeCount, hrise.words⟩

theorem run_within_lifetime {n : Nat} (hs : LifetimeGoesOn s) (h : run n s = .next t) :
    LifetimeGoesOn t ∧ Rises s t := by
  refine run_keeps (P := fun u => LifetimeGoesOn u ∧ Rises s u) ?_ ⟨hs, Rises.refl s⟩ h
  rintro u v ⟨hu, hrise⟩ hstep
  obtain ⟨hv, hrise'⟩ := step_within_lifetime hu hstep
  exact ⟨hv, hrise.trans hrise'⟩

/-- Settles O34: every step within the lifetime only sets bits, and that composes along the run. -/
theorem bitsOnlyRiseWithinALifetime : Obligations.BitsOnlyRiseWithinALifetime := by
  intro n s t hl hframes h
  obtain ⟨-, hw, hp, hwords⟩ := run_within_lifetime ⟨hl, hframes⟩ h
  exact ⟨hw, hp, hwords⟩

/-! ### The architectural triple decides what a command does -/

/-- Where the loop of CONTAINS ends on `k` probes whose bits are `bit`: after `m` probes, the last the first miss, or after
all `k` of them with HIT kept (42_filter_commands.md R76). -/
structure ProbesEnd (bit : Nat → Bool) (k m : Nat) (hit : Bool) : Prop where
  within : m ≤ k
  before : ∀ i, i + 1 < m → bit i = true
  ends : (hit = true ∧ m = k ∧ ∀ i, i < k → bit i = true) ∨ (hit = false ∧ 0 < m ∧ bit (m - 1) = false)

/-- The loop goes no further than a miss. -/
theorem ProbesEnd.le_of_miss {bit : Nat → Bool} {k m i : Nat} {hit : Bool} (h : ProbesEnd bit k m hit)
    (hi : bit i = false) : m ≤ i + 1 := by
  by_contra hlt
  rw [h.before i (by omega)] at hi
  cases hi

/-- The bits alone decide where the loop ends and what HIT is. -/
theorem ProbesEnd.unique {bit : Nat → Bool} {k m m' : Nat} {hit hit' : Bool} (h : ProbesEnd bit k m hit)
    (h' : ProbesEnd bit k m' hit') : m = m' ∧ hit = hit' := by
  have hle := h.within
  have hle' := h'.within
  rcases h.ends with ⟨hh, hm, hall⟩ | ⟨hh, hpos, hmiss⟩ <;>
    rcases h'.ends with ⟨hh', hm', hall'⟩ | ⟨hh', hpos', hmiss'⟩
  · exact ⟨hm.trans hm'.symm, hh.trans hh'.symm⟩
  · rw [hall _ (by omega)] at hmiss'
    cases hmiss'
  · rw [hall' _ (by omega)] at hmiss
    cases hmiss
  · have hm := h.le_of_miss hmiss'
    have hm' := h'.le_of_miss hmiss
    exact ⟨by omega, hh.trans hh'.symm⟩

/-- CONTAINS, with the end of its loop named. -/
theorem containsOn_answered_probesEnd (hw : 1 ≤ s.wordCount.toNat) (ha : s.hashUnit = .answersAll) :
    ∃ w m, containsOn c payload s = .next (endContains (respond .ok (hitValue w.hit)
        { s with
          work := w
          hashRequests := s.hashRequests ++ hashRequestList c payload (max m 1)
          outstanding := none })) ∧
      ProbesEnd (fun i => s.bits.bit (probeIndex c payload s.totalBits i)) s.probeCount.toNat m w.hit := by
  obtain ⟨w, m, h, hwithin, hbefore, hends⟩ := containsOn_answered hw ha
  exact ⟨w, m, h, hwithin, hbefore, hends⟩

/-- Two states in which a command does the same: one response, one list of hash requests, one architectural triple. -/
def ActsAlike (i : Instr) (s1 s2 : State) : Prop :=
  ∃ t1 t2 r requests, exec i s1 = .next t1 ∧ exec i s2 = .next t2 ∧ sameArch t1 t2 ∧
    t1.responses = s1.responses ++ [r] ∧ t2.responses = s2.responses ++ [r] ∧
    t1.hashRequests = s1.hashRequests ++ requests ∧ t2.hashRequests = s2.hashRequests ++ requests

section ActsAlike
variable {s1 s2 : State}

/-- A command that only answers, with one response in both states, acts alike. -/
theorem ActsAlike.of_respond {i : Instr} {st : Status} {v : Word} (h : sameArch s1 s2)
    (h1 : exec i s1 = .next (respond st v s1)) (h2 : exec i s2 = .next (respond st v s2)) : ActsAlike i s1 s2 :=
  ⟨_, _, _, [], h1, h2, h, rfl, rfl, (List.append_nil _).symm, (List.append_nil _).symm⟩

theorem create_actsAlike (a k : Word) (h : sameArch s1 s2) : ActsAlike (.create a k) s1 s2 := by
  rcases Nat.lt_or_ge Config.chip.wMax (max a.toNat 1) with hf | hf
  · exact .of_respond h (createOn_refused hf) (createOn_refused hf)
  · exact ⟨_, _, _, [], createOn_fits hf, createOn_fits hf, ⟨rfl, rfl, rfl⟩, rfl, rfl,
      (List.append_nil _).symm, (List.append_nil _).symm⟩

theorem rdword_actsAlike (index : Word) (h : sameArch s1 s2) : ActsAlike (.rdword index) s1 s2 := by
  have ⟨hw, _, hb⟩ := h
  rcases Nat.lt_or_ge index.toNat s1.wordCount.toNat with hx | hx
  · refine .of_respond h (exec_rdword_below hx) ?_
    rw [exec_rdword_below (by rwa [hw]), hb]
  · exact .of_respond h (exec_rdword_beyond hx) (exec_rdword_beyond (by rwa [hw]))

theorem add_actsAlike (payload : Bytes) (h : sameArch s1 s2) (hpos : 1 ≤ s1.wordCount.toNat)
    (ha1 : s1.hashUnit = .answersAll) (ha2 : s2.hashUnit = .answersAll) : ActsAlike (.add payload) s1 s2 := by
  obtain ⟨hw, hp, hb⟩ := h
  obtain ⟨w1, h1, -⟩ := addOn_answered (c := Config.chip) (payload := payload) hpos ha1
  obtain ⟨w2, h2, -⟩ := addOn_answered (c := Config.chip) (payload := payload) (by rwa [hw]) ha2
  rw [State.totalBits_eq, hw, hp, hb, ← State.totalBits_eq] at h2
  exact ⟨_, _, _, _, h1, h2, ⟨rfl, rfl, rfl⟩, rfl, rfl, rfl, rfl⟩

theorem contains_actsAlike (payload : Bytes) (h : sameArch s1 s2) (hpos : 1 ≤ s1.wordCount.toNat)
    (ha1 : s1.hashUnit = .answersAll) (ha2 : s2.hashUnit = .answersAll) : ActsAlike (.contains payload) s1 s2 := by
  have ⟨hw, hp, hb⟩ := h
  obtain ⟨w1, m1, h1, hend1⟩ := containsOn_answered_probesEnd (c := Config.chip) (payload := payload) hpos ha1
  obtain ⟨w2, m2, h2, hend2⟩ := containsOn_answered_probesEnd (c := Config.chip) (payload := payload) (by rwa [hw]) ha2
  rw [State.totalBits_eq, hw, hp, hb, ← State.totalBits_eq] at hend2
  obtain ⟨rfl, hhit⟩ := hend1.unique hend2
  rw [← hhit] at h2
  exact ⟨_, _, _, _, h1, h2, h, rfl, rfl, rfl, rfl⟩

end ActsAlike

/-- Settles O40: each command's response, requests and new triple are written in terms of the triple alone; for CONTAINS
the bits decide where the loop ends. -/
theorem onlyTheArchitecturalTripleMatters : Obligations.OnlyTheArchitecturalTripleMatters := by
  intro i s1 s2 h hpos ha1 ha2
  have ⟨hw, hp, _⟩ := h
  change ActsAlike i s1 s2
  cases i with
  | create a k => exact create_actsAlike a k h
  | add payload => exact add_actsAlike payload h hpos ha1 ha2
  | contains payload => exact contains_actsAlike payload h hpos ha1 ha2
  | capacity => exact .of_respond (v := s1.wordCount) h rfl (by rw [← hw]; rfl)
  | probecount => exact .of_respond (v := s1.probeCount) h rfl (by rw [← hp]; rfl)
  | rdword index => exact rdword_actsAlike index h

/-! ### Frames that wait on the port -/

/-- Sending commands puts their frames behind those offered. -/
theorem send_eq_offer (commands : List Instr) (s : State) :
    send commands s = s.offer (s.offered ++ commands.map encode) := rfl

/-- While a frame is offered, commands sent behind it make no difference to a step but that they wait. -/
theorem step_send (commands : List Instr) (hl : s.resetLine = []) (hf : s.offered ≠ []) (h : step s = .next t) :
    step (send commands s) = .next (send commands t) := by
  obtain ⟨f, rest, hf⟩ := List.exists_cons_of_ne_nil hf
  have hr : s.resetReleased := by simp [State.resetReleased, hl]
  match ho : s.outstanding with
  | some request =>
    rw [step_wait ho hr] at h
    cases h
    exact step_wait ho hr
  | none =>
    rw [step_frame ho hr hf] at h
    rw [step_frame (s := send commands s) ho hr (rest := rest ++ commands.map encode) (by rw [send_eq_offer, hf]; rfl)]
    have ha := accept_offer f (rest ++ commands.map encode) { s with offered := rest, resetLine := s.resetLine.tail }
    rw [h] at ha
    rw [send_eq_offer commands t, (accept_keeps_port h).1]
    exact ha

/-- With no reset to come, a step takes at most one frame and leaves the reset input released. -/
theorem step_takes_one (hl : s.resetLine = []) (h : step s = .next t) :
    t.resetLine = [] ∧ s.offered.length ≤ t.offered.length + 1 := by
  rcases step_of_noReset hl h with rfl | ⟨f, rest, hf, ha⟩
  · exact ⟨hl, Nat.le_succ _⟩
  · obtain ⟨hoffered, hreset⟩ := accept_keeps_port ha
    exact ⟨hreset.trans hl, by rw [hoffered, hf]; exact le_refl _⟩

/-- Settles O46, by induction on the number of steps: every step up to the number of frames offered finds a frame of its
own in front of the commands sent. -/
theorem framesNotYetAcceptedHaveNoEffect : Obligations.FramesNotYetAcceptedHaveNoEffect := by
  intro commands n
  induction n with
  | zero =>
    intro s t _ _ h
    cases h
    rfl
  | succ n ih =>
    intro s t hl hn h
    rw [run] at h ⊢
    match hu : step s with
    | .next u =>
      rw [hu] at h
      obtain ⟨hlu, hlen⟩ := step_takes_one hl hu
      rw [step_send commands hl (List.ne_nil_of_length_pos (by omega)) hu]
      exact ih u t hlu (by omega) h
    | .fault r => rw [hu] at h; cases h
    | .refused r => rw [hu] at h; cases h

/-! ### Reset, and what stops a command -/

/-- Settles O1: CREATE 0, 0 asks for the clamp's 1 and 1, which every chip has room for. -/
theorem resetLeavesTheOneWordFilter : Obligations.ResetLeavesTheOneWordFilter := by
  refine ⟨rfl, rfl, rfl, rfl, fun s => ?_⟩
  have hfits : max (0 : Word).toNat 1 ≤ Config.chip.wMax := one_le_wMax Config.chip
  exact ⟨_, createOn_fits hfits, rfl, rfl, rfl⟩

/-- With WORDCOUNT = 0 the modulus TOTALBITS is 0 (log entry 11). -/
theorem not_totalBits_pos (h : s.wordCount = 0) : ¬ 0 < s.totalBits := by
  rw [State.totalBits_eq, h]
  decide

/-- Settles O9: ADD and CONTAINS test the modulus first, and no other command has one. -/
theorem onlyAZeroWordCountStopsACommand : Obligations.OnlyAZeroWordCountStopsACommand := by
  refine ⟨fun payload s h => ⟨?_, ?_⟩, fun i s h => exec_next i ?_, fun a k index s => ⟨?_, ?_, ?_, ?_⟩⟩
  · exact dif_neg (not_totalBits_pos h)
  · exact dif_neg (not_totalBits_pos h)
  · exact Nat.one_le_iff_ne_zero.2 fun h0 => h (BitVec.eq_of_toNat_eq h0)
  · exact exec_create_next a k s
  · exact ⟨_, rfl⟩
  · exact ⟨_, rfl⟩
  · exact exec_rdword_next index s

end Sys2Proof.Machine


/-! The index map and the command at the front of the port (20_memory.md R31, R43; 41_probe_sequence.md R70). -/

namespace Sys2Proof.Machine

variable {s : State} {h : Word}

/-! ### The index map -/

theorem eq_bucketOf_mul_add_bitOffsetOf (index : Nat) : index = bucketOf index * 64 + bitOffsetOf index :=
  (Nat.div_add_mod' index 64).symm

theorem bucketOf_lt {index : Nat} (hx : index < s.totalBits) : bucketOf index < s.wordCount.toNat :=
  Nat.div_lt_of_lt_mul (by rwa [State.totalBits_eq, Nat.mul_comm] at hx)

theorem bitOffsetOf_lt (index : Nat) : bitOffsetOf index < 64 := Nat.mod_lt index (by decide)

/-- `bucket = index[63:6]` (20_memory.md R31): dividing by `2 ^ 6` shifts the low six bits out. -/
theorem ofNat_bucketOf (index : Nat) : BitVec.ofNat 58 (bucketOf index) = (BitVec.ofNat 64 index).extractLsb' 6 58 := by
  apply BitVec.eq_of_toNat_eq
  simp only [BitVec.extractLsb'_toNat, BitVec.toNat_ofNat, Nat.shiftRight_eq_div_pow, bucketOf]
  omega

/-- `bitOffset = index[5:0]` (20_memory.md R31): the remainder by `2 ^ 6` keeps the low six bits. -/
theorem ofNat_bitOffsetOf (index : Nat) :
    BitVec.ofNat 6 (bitOffsetOf index) = (BitVec.ofNat 64 index).extractLsb' 0 6 := by
  apply BitVec.eq_of_toNat_eq
  simp only [BitVec.extractLsb'_toNat, BitVec.toNat_ofNat, Nat.shiftRight_zero, bitOffsetOf]
  omega

/-- A TOTALBITS that is not 0 is a word at least (10_state.md R16). -/
theorem le_totalBits (ht : 0 < s.totalBits) : 64 ≤ s.totalBits := by
  rw [State.totalBits_eq] at ht ⊢
  omega

/-- IDX is H when H is below the modulus (41_probe_sequence.md R70). -/
theorem bitIndex_val_of_lt {t : Nat} (ht : 0 < t) (hh : h.toNat < t) : (bitIndex h ht).val = h.toNat :=
  Nat.mod_eq_of_lt hh

/-- Settles O13: the quotient and the remainder by 64 are the two bit fields, and IDX is a remainder by TOTALBITS. -/
theorem theIndexMapStaysInTheStore : Obligations.TheIndexMapStaysInTheStore := by
  intro s h ht
  refine ⟨fun index hx => ⟨eq_bucketOf_mul_add_bitOffsetOf index, bucketOf_lt hx, Nat.le_of_lt_succ (bitOffsetOf_lt index),
    ofNat_bucketOf index, ofNat_bitOffsetOf index⟩, le_totalBits ht, ?_, (bitIndex h ht).isLt, bitIndex_val_of_lt ht⟩
  rw [← State.totalBits_eq]
  rfl

/-! ### The command at the front of the port -/

/-- Settles O23: the free engine takes the frame, and a frame that decodes runs its command. -/
theorem aStepRunsTheDecodedCommand : Obligations.AStepRunsTheDecodedCommand := by
  intro s f rest i ho hr hf hd _
  calc step s
    _ = accept f { s with offered := rest, resetLine := s.resetLine.tail } := step_frame ho hr hf
    _ = exec i { s with offered := rest, resetLine := s.resetLine.tail } := accept_ok hd _

end Sys2Proof.Machine


/-! Frames and responses (30_encoding.md): what a frame decodes to, what a command assembles to, which parts of a frame
count, and the one response a frame gets. -/

namespace Sys2Proof

variable {f g : Frame} {o : Opcode}

/-! ### The opcode map -/

/-- The opcode map has six rows (30_encoding.md R51). -/
theorem Opcode.exists_iff {P : Opcode → Prop} :
    (∃ o, P o) ↔ P .create ∨ P .add ∨ P .contains ∨ P .capacity ∨ P .probecount ∨ P .rdword := by
  constructor
  · rintro ⟨o, h⟩
    cases o <;> simp [h]
  · rintro (h | h | h | h | h | h) <;> exact ⟨_, h⟩

/-! ### A command and the frame it assembles to -/

theorem w0_encode (i : Instr) : (encode i).w0 = i.opcode.w0 := by
  cases i <;> exact Frame.w0_ofWords ..

/-- The operands a format takes from an assembled frame are the command's own. -/
theorem operands_encode (i : Instr) : (encode i).operands i.opcode = i := by
  cases i <;> simp [encode, Instr.opcode, Frame.operands]

theorem decode_encode (i : Instr) : decode (encode i) = .ok i :=
  decode_eq_ok.2 ⟨i.opcode, w0_encode i, (operands_encode i).symm⟩

/-- What the assembler writes where a format ignores a part: 0, and no payload (30_encoding.md R55, R58). -/
structure Frame.IgnoredClear (f : Frame) (fmt : Format) : Prop where
  arg0 : fmt.uses.1 = false → f.arg0 = 0
  arg1 : fmt.uses.2.1 = false → f.arg1 = 0
  payload : fmt.uses.2.2 = false → f.payload = []

/-- With a command selected, the checks left are those of the ignored parts. -/
theorem Frame.check_eq_none (hw : f.w0 = o.w0) : f.check = none ↔ f.IgnoredClear o.format := by
  simp only [Frame.check, decodeOpcode_eq_ok.2 hw]
  constructor
  · intro h
    split_ifs at h with h0 h1 hp
    exact ⟨by simpa using h0, by simpa using h1, by simpa using hp⟩
  · rintro ⟨h0, h1, hp⟩
    rw [if_neg (by simpa using h0), if_neg (by simpa using h1), if_neg (by simpa using hp)]

/-- A frame is well formed when W0 selects a command and the parts that command's format ignores are clear. -/
theorem Frame.wellFormed_iff : f.wellFormed = true ↔ ∃ o : Opcode, f.w0 = o.w0 ∧ f.IgnoredClear o.format := by
  rw [Frame.wellFormed, Option.isNone_iff_eq_none]
  constructor
  · intro h
    match hd : decodeOpcode f.w0 with
    | .ok o =>
      have hw := decodeOpcode_eq_ok.1 hd
      exact ⟨o, hw, (Frame.check_eq_none hw).1 h⟩
    | .error e => simp [Frame.check, hd] at h
  · rintro ⟨o, hw, hc⟩
    exact (Frame.check_eq_none hw).2 hc

theorem encode_ignoredClear (i : Instr) : (encode i).IgnoredClear i.opcode.format := by
  cases i <;> constructor <;> simp [encode, Instr.opcode, Opcode.format, Format.uses]

/-- A frame whose ignored parts are clear is the frame its command assembles to. -/
theorem encode_operands (hw : f.w0 = o.w0) (hc : f.IgnoredClear o.format) : encode (f.operands o) = f := by
  obtain ⟨h0, h1, hp⟩ := hc
  calc encode (f.operands o)
    _ = .ofWords o.w0 f.arg0 f.arg1 f.payload := by
      cases o with
      | create => rw [hp rfl]; rfl
      | add | contains => rw [h0 rfl, h1 rfl]; rfl
      | capacity | probecount => rw [h0 rfl, h1 rfl, hp rfl]; rfl
      | rdword => rw [h1 rfl, hp rfl]; rfl
    _ = f := by rw [← hw, ← Frame.eq_ofWords]

/-- Settles O18: W0 selects the command's own row of the map, and the operands come back from the three words. -/
theorem decodingAnEncodedCommandGivesItBack : Obligations.DecodingAnEncodedCommandGivesItBack :=
  fun i _ => ⟨decode_encode i, Frame.wellFormed_iff.2 ⟨i.opcode, w0_encode i, encode_ignoredClear i⟩⟩

/-- Settles O17: one disjunct for each row of the opcode map, whose W0 computes to the row's number. -/
theorem decodeFollowsTheOpcodeMap : Obligations.DecodeFollowsTheOpcodeMap :=
  fun _ _ _ => decode_eq_ok.trans Opcode.exists_iff

/-- Settles O19: the ignored parts are what `encode` writes, and the others are the command's operands. -/
theorem encodingADecodedFrameGivesItBack : Obligations.EncodingADecodedFrameGivesItBack := by
  intro f h
  obtain ⟨o, hw, hc⟩ := Frame.wellFormed_iff.1 h
  exact ⟨f.operands o, decode_eq_ok.2 ⟨o, hw, rfl⟩, encode_operands hw hc⟩

/-- Settles O21, by running the decoder on the eight frames. -/
theorem wordsWrittenOutDecode : Obligations.WordsWrittenOutDecode :=
  ⟨rfl, rfl, rfl, rfl, rfl, rfl, rfl, rfl⟩

/-! ### The parts that count -/

/-- Decoding reads W0 and the operands of the command it selects (30_encoding.md R57). -/
theorem decode_congr (hw : f.w0 = g.w0) (ho : ∀ o : Opcode, f.w0 = o.w0 → f.operands o = g.operands o) :
    decode f = decode g := by
  rw [decode, decode, ← hw]
  match hd : decodeOpcode f.w0 with
  | .ok o => exact congrArg Except.ok (ho o (decodeOpcode_eq_ok.1 hd))
  | .error e => rfl

/-- Settles O20: a frame acts through what it decodes to, and each format's operands are the parts assumed equal. -/
theorem ignoredPartsHaveNoEffect : Obligations.IgnoredPartsHaveNoEffect := by
  intro f g s hw hcreate hpayload hrdword
  have hd : decode f = decode g := by
    refine decode_congr hw fun o ho => ?_
    cases o with
    | create => obtain ⟨h0, h1⟩ := hcreate ho; exact congrArg₂ Instr.create h0 h1
    | add => exact congrArg Instr.add (hpayload (.inl ho))
    | contains => exact congrArg Instr.contains (hpayload (.inr ho))
    | capacity => rfl
    | probecount => rfl
    | rdword => exact congrArg Instr.rdword (hrdword ho)
  rw [Machine.accept, Machine.accept, hd]

end Sys2Proof

namespace Sys2Proof.Machine

/-! ### Responses -/

theorem extractLsb'_low_setWidth (b : Byte) : (b.setWidth 64).extractLsb' 0 8 = b := by
  apply BitVec.eq_of_toNat_eq
  simp only [BitVec.extractLsb'_toNat, BitVec.toNat_setWidth, Nat.shiftRight_zero]
  omega

theorem extractLsb'_high_setWidth (b : Byte) : (b.setWidth 64).extractLsb' 8 56 = 0 := by
  apply BitVec.eq_of_toNat_eq
  simp only [BitVec.extractLsb'_toNat, BitVec.toNat_setWidth, Nat.shiftRight_eq_div_pow, BitVec.ofNat_eq_ofNat,
    BitVec.toNat_ofNat]
  omega

/-- Settles O22: R0 is the status byte zero-extended. -/
theorem responseFramesCarryStatusAndValue : Obligations.ResponseFramesCarryStatusAndValue :=
  ⟨fun r => ⟨extractLsb'_low_setWidth r.status.code, extractLsb'_high_setWidth r.status.code, rfl⟩, rfl, rfl, rfl, rfl⟩

/-- An accepted frame, legal or not, ends with one response and leaves the engine free. -/
theorem accept_answered (f : Frame) {s : State} (hw : 1 ≤ s.wordCount.toNat) (ha : s.hashUnit = .answersAll)
    (ho : s.outstanding = none) :
    ∃ t r, accept f s = .next t ∧ t.responses = s.responses ++ [r] ∧ t.outstanding = none ∧
      t.hashUnit = .answersAll := by
  match hd : decode f with
  | .ok i => rw [accept_ok hd]; exact exec_answered i hw ha ho
  | .error e => exact ⟨_, _, accept_error hd s, rfl, ho, ha⟩

/-- Settles O29: the step accepts the first frame, and no command looks at the frames behind it. -/
theorem everyFrameGetsExactlyOneResponse : Obligations.EveryFrameGetsExactlyOneResponse := by
  intro s f rest hi ho ha hr hf
  obtain ⟨t, r, ht, hresp, hfree, hunit⟩ :=
    accept_answered f (s := { s with offered := rest, resetLine := s.resetLine.tail }) hi.wordCount_pos ha ho
  exact ⟨t, r, (step_frame ho hr hf).trans ht, hresp, (accept_keeps_port ht).1, hfree, hunit⟩

end Sys2Proof.Machine

/-! The bit store (40_bitstore.md): what SETBIT, TESTBIT and RDWORD read and write, and the laws that hold between them. -/

namespace Sys2Proof.Machine

variable {s : State}

/-! ### The store's laws, on memories -/

/-- Setting a bit twice is setting it once (40_bitstore.md R64 (c)). -/
theorem Memory.setBit_setBit_same {m : Memory} (hm : m.wf = true) (x : Nat) : (m.setBit x).setBit x = m.setBit x :=
  have hx : (m.setBit x).wf = true := wf_setBit hm x
  ext_of_bit (wf_setBit hx x) hx fun z => by rw [bit_setBit, bit_setBit, Bool.or_assoc, Bool.or_self]

/-- The order of two settings does not matter (40_bitstore.md R64 (d)). -/
theorem Memory.setBit_comm {m : Memory} (hm : m.wf = true) (x y : Nat) :
    (m.setBit x).setBit y = (m.setBit y).setBit x :=
  ext_of_bit (wf_setBit (wf_setBit hm x) y) (wf_setBit (wf_setBit hm y) x) fun z => by
    simp only [bit_setBit]
    exact Bool.or_right_comm _ _ _

/-! ### TESTBIT after SETBIT -/

theorem testBit_fst {t : Nat} (x : Fin t) (s : State) : (testBit x s).1 = s.bits.bit x.val := rfl

theorem testBit_setBit {t : Nat} (x y : Fin t) (s : State) :
    (testBit y (setBit x s)).1 = ((testBit y s).1 || decide (y = x)) := by
  simp only [testBit_fst, setBit_bits, Memory.bit_setBit, Fin.ext_iff]

/-! ### RDWORD below TOTALBITS -/

/-- A word index that WORDCOUNT bounds survives the trip through ARG0. -/
theorem toNat_ofNat_bucketOf {index : Nat} (hx : index < s.totalBits) :
    (BitVec.ofNat 64 (bucketOf index)).toNat = bucketOf index :=
  Nat.mod_eq_of_lt ((bucketOf_lt hx).trans s.wordCount.isLt)

theorem exec_rdword_bucketOf {index : Nat} (hx : index < s.totalBits) :
    exec (.rdword (BitVec.ofNat 64 (bucketOf index))) s = .next (respond .ok (s.bits.read (bucketOf index)) s) := by
  have hlt : (BitVec.ofNat 64 (bucketOf index)).toNat < s.wordCount.toNat := by
    rw [toNat_ofNat_bucketOf hx]; exact bucketOf_lt hx
  rw [exec_rdword_below hlt, toNat_ofNat_bucketOf hx]

/-- Settles O12: SETBIT adds one index to the bits that test true, and canonical stores with the same bits are equal. -/
theorem theStoreObeysItsLaws : Obligations.TheStoreObeysItsLaws := by
  intro s x y
  refine ⟨?setTests, ?othersKeep, fun hm => ?idempotent, fun hm => ?commutes, fun hy => ?clearsNothing,
    s.bits.read (bucketOf x), exec_rdword_bucketOf x.isLt, Iff.rfl⟩
  case setTests => rw [testBit_setBit, decide_eq_true rfl, Bool.or_true]
  case othersKeep => intro hne; rw [testBit_setBit, decide_eq_false hne, Bool.or_false]
  case idempotent => exact Memory.setBit_setBit_same hm x
  case commutes => exact Memory.setBit_comm hm x y
  case clearsNothing => rw [testBit_setBit, hy, Bool.true_or]

/-- Settles O8. -/
theorem rdwordReadsAWordOrAnswersRange : Obligations.RdwordReadsAWordOrAnswersRange :=
  fun _ _ => ⟨exec_rdword_below, exec_rdword_beyond⟩

/-! ### BUCKET and BITOFF -/

/-- W_MAX is at most `2 ^ 58 - 1` (00_scope.md R5), so a word index fits BUCKET. -/
theorem wMax_lt_two_pow (c : Chip) : c.wMax < 2 ^ 58 := by
  have := c.topWord.isLt
  simp only [Chip.wMax]
  omega

theorem noteBitAddress_bucket_toNat (x : Fin s.totalBits) (hw : s.wordCount.toNat ≤ Config.chip.wMax) (u : State) :
    (noteBitAddress x u).work.bucket.toNat = bucketOf x :=
  Nat.mod_eq_of_lt ((bucketOf_lt x.isLt).trans_le (hw.trans (wMax_lt_two_pow _).le))

theorem noteBitAddress_bitoff_toNat {t : Nat} (x : Fin t) (u : State) :
    (noteBitAddress x u).work.bitoff.toNat = bitOffsetOf x :=
  Nat.mod_eq_of_lt (bitOffsetOf_lt x)

/-- Settles O10: the store's write is read back word by word, and the two address registers hold the index map's values. -/
theorem setBitWritesOneWord : Obligations.SetBitWritesOneWord := by
  intro s x hw
  refine ⟨?word, fun w hne => ?otherWords, noteBitAddress_bucket_toNat x hw s, noteBitAddress_bitoff_toNat x s, rfl⟩
  case word => exact (Memory.read_setBit ..).trans (if_pos rfl)
  case otherWords => exact (Memory.read_setBit ..).trans (if_neg hne)

/-! ### The tested bit -/

/-- Shifting bit `b` down and masking it is reading it (40_bitstore.md R62). -/
theorem getLsbD_iff_shift_and_one (v : Word) (b : Nat) : v.getLsbD b = true ↔ (v >>> b) &&& 1 = 1 := by
  rw [BitVec.ofNat_eq_ofNat, BitVec.and_one_eq_setWidth_ofBool_getLsbD, BitVec.getLsbD_ushiftRight, Nat.add_zero]
  cases v.getLsbD b <;> decide

/-- Settles O11: TESTBIT's bit is the shifted and masked word, and only the two address registers are written. -/
theorem testBitReadsOneBit : Obligations.TestBitReadsOneBit :=
  fun s x hw => ⟨getLsbD_iff_shift_and_one _ _, noteBitAddress_bucket_toNat x hw s, noteBitAddress_bitoff_toNat x s, rfl⟩

end Sys2Proof.Machine

/-! The probe sequence (41_probe_sequence.md): the iterative generator derives the closed form, and the indices depend on
the payload and the two counts alone. -/

namespace Sys2Proof.Machine

variable {c : Chip} {payload : Bytes} {s : State}

/-! ### The generator by itself -/

/-- PROBE_INIT and then `n` PROBE_STEPs (41_probe_sequence.md R71): the loop stands before probe `n`, and H and IDX are
those of the probe before it. -/
theorem probeInit_probeSteps_done {t n : Nat} (ht : 0 < t) (hn : n ≤ 2 ^ 64) (ha : s.hashUnit = .answersAll) :
    ∃ indices w, (probeInit c payload s).andThen (fun _ s1 => probeSteps c ht n s1) = .done indices
        { s with
          work := w
          hashRequests := s.hashRequests ++ hashRequestList c payload (max n 1)
          outstanding := none } ∧
      indices.map Fin.val = indicesFrom c payload t 0 n ∧
      ProbeAt c payload n { s with work := w } ∧
      (n ≠ 0 → w.h = probeValue c payload (n - 1) ∧ w.idx = BitVec.ofNat 64 (probeIndex c payload t (n - 1))) := by
  obtain ⟨w0, hinit, hbefore, -⟩ := probeInit_done (c := c) (payload := payload) (s := s) (u := .answersAll)
    (by rw [ha]; rfl)
  obtain ⟨indices, w, hsteps, hindices, hafter, -, hlast⟩ := probeSteps_done (c := c) (payload := payload) (j := 0)
    (s := { s with
      work := w0, hashRequests := s.hashRequests ++ [payload], outstanding := none, hashUnit := .answersAll })
    ht (by omega : 0 + n ≤ 2 ^ 64) ⟨hbefore.base, hbefore.i, hbefore.ctr⟩ rfl
  rw [Nat.zero_add] at hafter hlast
  refine ⟨indices, w, ?_, hindices, ⟨hafter.base, hafter.i, hafter.ctr⟩, hlast⟩
  rw [hinit]
  refine hsteps.trans ?_
  simp only [ite_self, List.append_assoc, List.singleton_append, payload_requestsFrom, ha]

theorem indicesFrom_zero_eq (t n : Nat) :
    indicesFrom c payload t 0 n = (List.range n).map (probeIndex c payload t) := by
  rw [indicesFrom, List.range_eq_range']

/-- A remainder of a word is itself a word, so IDX holds the index as it is (41_probe_sequence.md R70). -/
theorem toNat_ofNat_probeIndex (t i : Nat) :
    (BitVec.ofNat 64 (probeIndex c payload t i)).toNat = probeIndex c payload t i :=
  Nat.mod_eq_of_lt ((Nat.mod_le _ _).trans_lt (probeValue c payload i).isLt)

/-- Settles O15: the generator is run once, and its end read field by field. -/
theorem theGeneratorFollowsTheClosedForm : Obligations.TheGeneratorFollowsTheClosedForm := by
  intro c payload s ht n hn ha
  obtain ⟨indices, w, hrun, hindices, hend, hlast⟩ :=
    probeInit_probeSteps_done (c := c) (payload := payload) ht hn.le ha
  refine ⟨indices, _, hrun, hindices.trans (indicesFrom_zero_eq _ n), hend.base, hend.i, hend.ctr, fun h0 => ?lastProbe,
    rfl, rfl⟩
  case lastProbe =>
    obtain ⟨hh, hidx⟩ := hlast h0
    exact ⟨hh, (congrArg BitVec.toNat hidx).trans (toNat_ofNat_probeIndex _ _)⟩

/-! ### One list of indices for every store -/

/-- HIT is kept exactly when no probe misses (42_filter_commands.md R76). -/
theorem ProbesEnd.hit_iff {bit : Nat → Bool} {k m : Nat} {hit : Bool} (h : ProbesEnd bit k m hit) :
    hit = true ↔ ∀ i, i < k → bit i = true := by
  have hle := h.within
  rcases h.ends with ⟨rfl, -, hall⟩ | ⟨rfl, hpos, hmiss⟩
  · exact iff_of_true rfl hall
  · refine iff_of_false Bool.false_ne_true fun hall => ?_
    rw [hall (m - 1) (by omega)] at hmiss
    cases hmiss

theorem hitValue_eq_one_iff (hit : Bool) : hitValue hit = 1 ↔ hit = true := by
  cases hit <;> decide

/-- A property holds along the first `n` indices exactly when it holds of each probe's. -/
theorem forall_mem_indicesFrom_zero {t n : Nat} {p : Nat → Prop} :
    (∀ x ∈ indicesFrom c payload t 0 n, p x) ↔ ∀ i, i < n → p (probeIndex c payload t i) := by
  simp only [indicesFrom_zero_eq, List.forall_mem_map, List.mem_range]

/-- ADD sets the bits at the indices and no other (42_filter_commands.md R75). -/
theorem exec_add_bit_iff (payload : Bytes) (hw : 1 ≤ s.wordCount.toNat) (ha : s.hashUnit = .answersAll) :
    ∃ t, exec (.add payload) s = .next t ∧ ∀ x, t.bits.bit x = true ↔
      s.bits.bit x = true ∨ x ∈ indicesFrom Config.chip payload s.totalBits 0 s.probeCount.toNat := by
  obtain ⟨w, h, -⟩ := addOn_answered (c := Config.chip) (payload := payload) hw ha
  refine ⟨_, h, fun x => ?_⟩
  simp only [endAdd_bits, respond_bits, Memory.bit_setBits, Bool.or_eq_true, decide_eq_true_eq]

/-- CONTAINS answers 1 exactly when the bits at the indices are all set (42_filter_commands.md R76). -/
theorem exec_contains_value_iff (payload : Bytes) (hw : 1 ≤ s.wordCount.toNat) (ha : s.hashUnit = .answersAll) :
    ∃ t v, exec (.contains payload) s = .next t ∧ t.responses = s.responses ++ [⟨.ok, v⟩] ∧
      (v = 1 ↔ ∀ x ∈ indicesFrom Config.chip payload s.totalBits 0 s.probeCount.toNat, s.bits.bit x = true) := by
  obtain ⟨w, m, h, hend⟩ := containsOn_answered_probesEnd (c := Config.chip) (payload := payload) hw ha
  refine ⟨_, hitValue w.hit, h, rfl, ?_⟩
  rw [hitValue_eq_one_iff, hend.hit_iff, forall_mem_indicesFrom_zero]

/-- Settles O16: the closed form's list mentions no store. -/
theorem theIndicesDoNotDependOnTheStore : Obligations.TheIndicesDoNotDependOnTheStore := by
  intro payload wordCount probeCount hw
  refine ⟨indicesFrom Config.chip payload (wordCount.toNat * 64) 0 probeCount.toNat, ?length, ?everyStore⟩
  case length => rw [indicesFrom, List.length_map, List.length_range']
  case everyStore =>
    rintro s rfl rfl ha
    exact ⟨exec_add_bit_iff payload hw ha, exec_contains_value_iff payload hw ha⟩

end Sys2Proof.Machine

/-! The filter commands (42_filter_commands.md): what CREATE, ADD and CONTAINS do and answer, and the laws of R81. -/

namespace Sys2Proof.Machine

variable {payload : Bytes} {s t u : State}

/-! ### CREATE, CAPACITY and the PROBECOUNT command -/

/-- Settles O3: the two clauses are the two branches of CREATE, and the clamp is `max(x, 1)`. -/
theorem createMakesAZeroedFilterOrAnswersCapacity : Obligations.CreateMakesAZeroedFilterOrAnswersCapacity :=
  fun a k _ => ⟨fun hfits => ⟨_, createOn_fits hfits, toNat_clamp a, toNat_clamp k, fun w _ => Memory.read_nil w, rfl⟩,
    createOn_refused⟩

/-- Settles O47: a CREATE that fits leaves the empty list of cells. -/
theorem aCreatedStoreListsNothing : Obligations.ACreatedStoreListsNothing :=
  fun _ _ _ hfits => ⟨_, createOn_fits hfits, rfl, Memory.read_nil⟩

/-- Settles O6: CAPACITY is its response. -/
theorem capacityAnswersWordCount : Obligations.CapacityAnswersWordCount := fun _ => rfl

/-- Settles O7: the PROBECOUNT command is its response. -/
theorem probeCountCommandAnswersTheRegister : Obligations.ProbeCountCommandAnswersTheRegister := fun _ => rfl

/-! ### The probed bits of a payload -/

/-- The indices of a payload's probes in a state, in probe order (41_probe_sequence.md R65). -/
def probedBits (payload : Bytes) (s : State) : List Nat :=
  indicesFrom Config.chip payload s.totalBits 0 s.probeCount.toNat

theorem mem_probedBits {x : Nat} :
    x ∈ probedBits payload s ↔ ∃ i, i < s.probeCount.toNat ∧ x = indexAt payload s i :=
  mem_indicesFrom_zero

theorem forall_mem_probedBits {p : Nat → Prop} :
    (∀ x ∈ probedBits payload s, p x) ↔ ∀ i, i < s.probeCount.toNat → p (indexAt payload s i) :=
  forall_mem_indicesFrom_zero

theorem allProbesSet_iff : allProbesSet payload s ↔ ∀ x ∈ probedBits payload s, s.bits.bit x = true :=
  (forall_mem_probedBits (p := fun x => s.bits.bit x = true)).symm

/-- The two counts decide which bits are probed (41_probe_sequence.md R72). -/
theorem probedBits_congr (payload : Bytes) (hw : t.wordCount = s.wordCount) (hp : t.probeCount = s.probeCount) :
    probedBits payload t = probedBits payload s := by
  rw [probedBits, probedBits, State.totalBits_eq, State.totalBits_eq, hw, hp]

/-! ### ADD -/

/-- Settles O4: the store after ADD is the store before with the probed bits set, read bit by bit and word by word. -/
theorem addSetsExactlyTheProbedBits : Obligations.AddSetsExactlyTheProbedBits := by
  intro payload s hw ha
  obtain ⟨w, hadd, hhit⟩ := addOn_answered (c := Config.chip) (payload := payload) hw ha
  refine ⟨_, hadd, rfl, fun x => ?bits, fun word hother => ?words, rfl, hhit, rfl⟩
  case bits =>
    rw [← mem_probedBits, endAdd_bits, respond_bits, Memory.bit_setBits, Bool.or_eq_true, decide_eq_true_eq]
    rfl
  case words => exact Memory.read_setBits_other s.bits (forall_mem_probedBits.2 hother)

/-- From `s` to `t` the store has gained the bits `xs`; the two counts and the hash unit stay. -/
structure Gains (xs : List Nat) (s t : State) : Prop where
  wordCount : t.wordCount = s.wordCount
  probeCount : t.probeCount = s.probeCount
  bits : t.bits = s.bits.setBits xs
  hashUnit : t.hashUnit = s.hashUnit

theorem exec_add_gains (payload : Bytes) (hw : 1 ≤ s.wordCount.toNat) (ha : s.hashUnit = .answersAll) :
    ∃ t, exec (.add payload) s = .next t ∧ Gains (probedBits payload s) s t := by
  obtain ⟨w, hadd, -⟩ := addOn_answered (c := Config.chip) (payload := payload) hw ha
  exact ⟨_, hadd, rfl, rfl, rfl, rfl⟩

theorem Memory.setBits_append (m : Memory) (xs ys : List Nat) : m.setBits (xs ++ ys) = (m.setBits xs).setBits ys :=
  List.foldl_append

theorem Gains.trans {xs ys : List Nat} (h : Gains xs s t) (h' : Gains ys t u) : Gains (xs ++ ys) s u where
  wordCount := h'.wordCount.trans h.wordCount
  probeCount := h'.probeCount.trans h.probeCount
  bits := by rw [h'.bits, h.bits, Memory.setBits_append]
  hashUnit := h'.hashUnit.trans h.hashUnit

/-- A canonical store does not show in which order, or how often, its bits were set (40_bitstore.md R64 (c), (d)). -/
theorem Memory.setBits_congr {m : Memory} (hm : m.wf = true) {xs ys : List Nat} (h : ∀ x, x ∈ xs ↔ x ∈ ys) :
    m.setBits xs = m.setBits ys :=
  ext_of_bit (wf_setBits hm xs) (wf_setBits hm ys) fun x => by rw [bit_setBits, bit_setBits, decide_eq_decide.2 (h x)]

theorem Gains.sameArch {xs ys : List Nat} (hm : s.bits.wf = true) (h : Gains xs s t) (h' : Gains ys s u)
    (hxy : ∀ x, x ∈ xs ↔ x ∈ ys) : sameArch t u :=
  ⟨h'.wordCount.trans h.wordCount.symm, h'.probeCount.trans h.probeCount.symm, by
    rw [h'.bits, h.bits, Memory.setBits_congr hm hxy]⟩

/-- Two ADDs in turn: the second probes as it would have in the first's place. -/
theorem exec_add_add_gains (p q : Bytes) (hw : 1 ≤ s.wordCount.toNat) (ha : s.hashUnit = .answersAll) :
    ∃ t u, exec (.add p) s = .next t ∧ exec (.add q) t = .next u ∧ Gains (probedBits p s) s t ∧
      Gains (probedBits p s ++ probedBits q s) s u := by
  obtain ⟨t, hp, ht⟩ := exec_add_gains p hw ha
  obtain ⟨u, hq, hu⟩ := exec_add_gains q (s := t) (by rwa [ht.wordCount]) (ht.hashUnit.trans ha)
  rw [probedBits_congr q ht.wordCount ht.probeCount] at hu
  exact ⟨t, u, hp, hq, ht, ht.trans hu⟩

/-- Settles O37: the second ADD adds no member to the list of bits gained. -/
theorem addingTwiceIsAddingOnce : Obligations.AddingTwiceIsAddingOnce := by
  intro payload s hi ha
  obtain ⟨t, u, ht, hu, honce, htwice⟩ := exec_add_add_gains payload payload hi.wordCount_pos ha
  exact ⟨t, u, ht, hu, honce.sameArch hi.bits_wf htwice fun x => by rw [List.mem_append, or_self]⟩

/-- Settles O38: in either order the same bits are gained. -/
theorem addsCommute : Obligations.AddsCommute := by
  intro p q s hi ha
  obtain ⟨t1, u1, hp1, hq1, -, hpq⟩ := exec_add_add_gains p q hi.wordCount_pos ha
  obtain ⟨t2, u2, hq2, hp2, -, hqp⟩ := exec_add_add_gains q p hi.wordCount_pos ha
  exact ⟨t1, u1, t2, u2, hp1, hq1, hq2, hp2, hpq.sameArch hi.bits_wf hqp fun x => by
    rw [List.mem_append, List.mem_append, or_comm]⟩

/-! ### CONTAINS -/

/-- With no miss the loop makes all its probes. -/
theorem ProbesEnd.of_all {bit : Nat → Bool} {k : Nat} (hall : ∀ i, i < k → bit i = true) : ProbesEnd bit k k true :=
  ⟨le_rfl, fun i hi => hall i (by omega), .inl ⟨rfl, rfl, hall⟩⟩

/-- With the first miss the loop ends. -/
theorem ProbesEnd.of_firstMiss {bit : Nat → Bool} {j k : Nat} (hj : j < k) (hmiss : bit j = false)
    (hbefore : ∀ i, i < j → bit i = true) : ProbesEnd bit k (j + 1) false :=
  ⟨hj, fun i hi => hbefore i (by omega), .inr ⟨rfl, Nat.succ_pos j, hmiss⟩⟩

/-- Settles O5: the bits decide where the loop ends, so each clause is read off the end it describes. -/
theorem containsAnswersWhetherEveryProbedBitIsSet : Obligations.ContainsAnswersWhetherEveryProbedBitIsSet := by
  intro payload s hw ha
  obtain ⟨w, m, hcontains, hend⟩ := containsOn_answered_probesEnd (c := Config.chip) (payload := payload) hw ha
  refine ⟨_, hitValue w.hit, max m 1, hcontains, rfl, rfl, fun hall => ?allSet, fun j hj hmiss hbefore => ?firstMiss, rfl⟩
  case allSet =>
    obtain ⟨rfl, hhit⟩ := hend.unique (.of_all hall)
    exact ⟨congrArg hitValue hhit, rfl⟩
  case firstMiss =>
    obtain ⟨rfl, hhit⟩ := hend.unique (.of_firstMiss hj hmiss hbefore)
    exact ⟨congrArg hitValue hhit, max_eq_left (Nat.le_add_left 1 j)⟩

/-- What CONTAINS answers, and what it leaves: the triple, and a hash unit that goes on answering. -/
theorem exec_contains_answer (payload : Bytes) (hw : 1 ≤ s.wordCount.toNat) (ha : s.hashUnit = .answersAll) :
    ∃ t v, exec (.contains payload) s = .next t ∧ sameArch s t ∧ t.hashUnit = .answersAll ∧
      t.responses = s.responses ++ [⟨.ok, v⟩] ∧ (v = 1 ↔ allProbesSet payload s) := by
  obtain ⟨w, m, hcontains, hend⟩ := containsOn_answered_probesEnd (c := Config.chip) (payload := payload) hw ha
  exact ⟨_, hitValue w.hit, hcontains, ⟨rfl, rfl, rfl⟩, ha, rfl, (hitValue_eq_one_iff w.hit).trans hend.hit_iff⟩

/-! ### Queries -/

theorem exec_rdword_responds (index : Word) (s : State) : ∃ st v, exec (.rdword index) s = .next (respond st v s) := by
  rcases Nat.lt_or_ge index.toNat s.wordCount.toNat with h | h
  · exact ⟨_, _, exec_rdword_below h⟩
  · exact ⟨_, _, exec_rdword_beyond h⟩

/-- A command that leaves the triple answers the same when it is issued again, because the triple alone decides the
response (10_state.md R22). -/
theorem exec_again_same_response {i : Instr} (h : exec i s = .next t) (hst : sameArch s t) (hw : 1 ≤ s.wordCount.toNat)
    (ha : s.hashUnit = .answersAll) (ha' : t.hashUnit = .answersAll) :
    ∃ t u r, exec i s = .next t ∧ sameArch s t ∧ t.responses = s.responses ++ [r] ∧
      exec i t = .next u ∧ u.responses = t.responses ++ [r] := by
  obtain ⟨t', u, r, -, ht', hu, -, hr, hr', -⟩ := onlyTheArchitecturalTripleMatters i s t hst hw ha ha'
  rw [h] at ht'
  cases ht'
  exact ⟨t, u, r, h, hst, hr, hu, hr'⟩

/-- Settles O39: each of the four commands leaves the triple. -/
theorem queriesArePure : Obligations.QueriesArePure := by
  rintro i s (⟨payload, rfl⟩ | rfl | rfl | ⟨index, rfl⟩) hw ha
  · obtain ⟨t, -, h, hst, ha', -⟩ := exec_contains_answer payload hw ha
    exact exec_again_same_response h hst hw ha ha'
  · exact exec_again_same_response (t := respond .ok s.wordCount s) rfl ⟨rfl, rfl, rfl⟩ hw ha ha
  · exact exec_again_same_response (t := respond .ok s.probeCount s) rfl ⟨rfl, rfl, rfl⟩ hw ha ha
  · obtain ⟨st, v, h⟩ := exec_rdword_responds index s
    exact exec_again_same_response h ⟨rfl, rfl, rfl⟩ hw ha ha

/-! ### Safety -/

theorem accept_next (f : Frame) (hw : 1 ≤ s.wordCount.toNat) : ∃ t, accept f s = .next t := by
  match hd : decode f with
  | .ok i => rw [accept_ok hd]; exact exec_next i hw
  | .error e => exact ⟨_, accept_error hd s⟩

theorem step_next (hi : Inv s) : ∃ t, step s = .next t := by
  rcases step_cases s with ⟨offered, rest, -, hs⟩ | ⟨-, hs⟩ | ⟨-, -, f, rest, -, hs⟩
  · exact ⟨_, hs⟩
  · exact ⟨_, hs⟩
  · rw [hs]
    exact accept_next f hi.wordCount_pos

/-- Settles O33, by induction on the number of steps: a state with the invariant has a next state, with the invariant. -/
theorem everyRunIsSafe : Obligations.EveryRunIsSafe := by
  intro n
  induction n with
  | zero => exact fun s _ => ⟨s, rfl⟩
  | succ n ih =>
    intro s hi
    obtain ⟨t, ht⟩ := step_next hi
    rw [SafeRun, run, ht]
    exact ih t (step_keeps_inv hi ht)

/-! ### A ready engine stays ready -/

theorem accept_keeps_ready {f : Frame} (hw : 1 ≤ s.wordCount.toNat) (hr : Ready s) (h : accept f s = .next t) :
    Ready t := by
  obtain ⟨t', r, ht', -, hfree, hunit⟩ := accept_answered f hw hr.answering hr.free
  rw [h] at ht'
  cases ht'
  exact ⟨hfree, hunit, (accept_keeps_port h).2.trans hr.noReset⟩

theorem exec_keeps_ready {i : Instr} (hw : 1 ≤ s.wordCount.toNat) (hr : Ready s) (h : exec i s = .next t) : Ready t :=
  accept_keeps_ready hw hr ((accept_ok (decode_encode i) s).trans h)

theorem step_keeps_ready (hi : Inv s) (hr : Ready s) (h : step s = .next t) : Ready t := by
  rcases step_of_noReset hr.noReset h with rfl | ⟨f, rest, -, ha⟩
  · exact hr
  · have hr' : Ready (s.offer rest) := ⟨hr.free, hr.answering, hr.noReset⟩
    exact accept_keeps_ready (s := s.offer rest) hi.wordCount_pos hr' ha

theorem run_keeps_inv_ready {n : Nat} (hi : Inv s) (hr : Ready s) (h : run n s = .next t) : Inv t ∧ Ready t :=
  run_keeps (P := fun u => Inv u ∧ Ready u)
    (fun _ _ ⟨hi, hr⟩ hstep => ⟨step_keeps_inv hi hstep, step_keeps_ready hi hr hstep⟩) ⟨hi, hr⟩ h

/-! ### A positive answer for the rest of the lifetime -/

theorem Rises.of_sameArch (h : sameArch s t) : Rises s t := by
  obtain ⟨hw, hp, hb⟩ := h
  exact ⟨hw, hp, fun w => by rw [hb, BitVec.and_self]⟩

theorem Rises.bit (h : Rises s t) {x : Nat} (hx : s.bits.bit x = true) : t.bits.bit x = true := by
  have hword := congrArg (BitVec.getLsbD · (bitOffsetOf x)) (h.words (bucketOf x))
  simp only [BitVec.getLsbD_and] at hword
  rw [Memory.bit] at hx ⊢
  rwa [hx, Bool.true_and] at hword

theorem Rises.allProbesSet (h : Rises s t) (hs : allProbesSet payload s) : allProbesSet payload t := by
  rw [allProbesSet_iff] at hs ⊢
  rw [probedBits_congr payload h.wordCount h.probeCount]
  exact fun x hx => h.bit (hs x hx)

/-- Once every probed bit is set, CONTAINS answers (OK, 1) after any run of the same lifetime: the counts stay, no bit is
cleared, and the hash unit goes on answering. -/
theorem exec_contains_one_after_run {n : Nat} (hi : Inv s) (hr : Ready s) (hframes : ∀ f ∈ s.offered, ¬ endsLifetime f)
    (hset : allProbesSet payload s) (h : run n s = .next t) :
    ∃ u, exec (.contains payload) t = .next u ∧ u.responses = t.responses ++ [⟨.ok, 1⟩] := by
  obtain ⟨hi', hr'⟩ := run_keeps_inv_ready hi hr h
  obtain ⟨-, hrise⟩ := run_within_lifetime ⟨hr.noReset, hframes⟩ h
  obtain ⟨u, v, hu, -, -, hresp, hv⟩ := exec_contains_answer payload hi'.wordCount_pos hr'.answering
  exact ⟨u, hu, by rw [hresp, hv.2 (hrise.allProbesSet hset)]⟩

/-- After ADD every probed bit is set. -/
theorem Gains.allProbesSet (h : Gains (probedBits payload s) s t) : allProbesSet payload t := by
  rw [allProbesSet_iff, probedBits_congr payload h.wordCount h.probeCount]
  intro x hx
  rw [h.bits, Memory.bit_setBits, decide_eq_true hx, Bool.or_true]

/-- Settles O35: ADD leaves every probed bit set. -/
theorem noFalseNegatives : Obligations.NoFalseNegatives := by
  intro payload n s t u hi hr hadd hframes hrun
  obtain ⟨t', hadd', hgains⟩ := exec_add_gains payload hi.wordCount_pos hr.answering
  rw [hadd] at hadd'
  cases hadd'
  exact exec_contains_one_after_run (exec_keeps_inv hi hadd) (exec_keeps_ready hi.wordCount_pos hr hadd) hframes
    hgains.allProbesSet hrun

/-- A CONTAINS that answered (OK, 1) found every probed bit set, and leaves it so. -/
theorem allProbesSet_of_answered_one (hw : 1 ≤ s.wordCount.toNat) (ha : s.hashUnit = .answersAll)
    (h : exec (.contains payload) s = .next t) (hone : t.responses = s.responses ++ [⟨.ok, 1⟩]) :
    allProbesSet payload t := by
  obtain ⟨t', v, h', hst, -, hresp, hv⟩ := exec_contains_answer payload hw ha
  rw [h] at h'
  cases h'
  have hv1 : v = 1 := by simpa [hone] using hresp.symm
  exact (Rises.of_sameArch hst).allProbesSet (hv.1 hv1)

/-- Settles O36: the answer says that every probed bit is set. -/
theorem aPositiveAnswerStaysPositive : Obligations.APositiveAnswerStaysPositive := by
  intro payload n s t u hi hr hcontains hone hframes hrun
  exact exec_contains_one_after_run (exec_keeps_inv hi hcontains) (exec_keeps_ready hi.wordCount_pos hr hcontains) hframes
    (allProbesSet_of_answered_one hi.wordCount_pos hr.answering hcontains hone) hrun

end Sys2Proof.Machine

/-! The host's pseudo-commands (43_host_pseudo.md): the frames offered first run to an empty port, each command asked then
runs alone and is matched with its own response, and the expansions are inductions over their commands. -/

namespace Sys2Proof.Machine

variable {payload : Bytes} {s t u v : State}

/-! ### The machine that the frames already offered leave -/

/-- An engine with the invariant that is free, with a hash unit that answers, no reset to come and nothing on its port. -/
structure AtRest (s : State) : Prop where
  inv : Inv s
  ready : Ready s
  port : s.offered = []

theorem AtRest.of_exec {i : Instr} (h : AtRest u) (hv : exec i u = .next v) : AtRest v where
  inv := exec_keeps_inv h.inv hv
  ready := exec_keeps_ready h.inv.wordCount_pos h.ready hv
  port := (exec_effect hv).offered.trans h.port

/-- The frames offered in `s` take one step and get one response each, and leave `u` at rest. -/
structure Drained (s u : State) : Prop where
  runs : run s.offered.length s = .next u
  atRest : AtRest u
  count : u.responses.length = s.responses.length + s.offered.length

theorem AtRest.drained (h : AtRest u) : Drained u u where
  runs := by rw [h.port]; rfl
  atRest := h
  count := by rw [h.port]; rfl

theorem resetReleased_of_noReset (hl : s.resetLine = []) : s.resetReleased := by
  simp [State.resetReleased, hl]

/-- By induction on the frames offered. -/
theorem exists_drained (hi : Inv s) (hr : Ready s) : ∃ u, Drained s u := by
  induction hf : s.offered generalizing s with
  | nil => exact ⟨s, AtRest.drained ⟨hi, hr, hf⟩⟩
  | cons f rest ih =>
    obtain ⟨t, r, hstep, hresp, hport, -, -⟩ :=
      everyFrameGetsExactlyOneResponse s f rest hi hr.free hr.answering
        (resetReleased_of_noReset hr.noReset) hf
    obtain ⟨u, hu⟩ := ih (step_keeps_inv hi hstep) (step_keeps_ready hi hr hstep) hport
    have hrun := hu.runs
    have hcount := hu.count
    rw [hport] at hrun
    rw [hresp, hport, List.length_append, List.length_singleton] at hcount
    refine ⟨u, ?_, hu.atRest, ?_⟩
    · rw [hf, List.length_cons, run, hstep]
      exact hrun
    · rw [hcount, hf, List.length_cons]
      omega

/-! ### Commands sent to an engine at rest -/

theorem send_nil (s : State) : send [] s = s := by rw [send, List.map_nil, List.append_nil]

/-- The first of the commands sent runs as it would alone; the others wait. -/
theorem step_send_cons {i : Instr} (commands : List Instr) (h : AtRest u) (hv : exec i u = .next v) :
    step (send (i :: commands) u) = .next (send commands v) := by
  have hport : (send (i :: commands) u).offered = encode i :: commands.map encode := by
    rw [send_eq_offer, h.port]; rfl
  have hreset : (send (i :: commands) u).resetLine.tail = u.resetLine := by
    rw [h.ready.noReset]; exact congrArg List.tail h.ready.noReset
  calc step (send (i :: commands) u)
      = accept (encode i) (u.offer (commands.map encode)) := by
        rw [step_frame (s := send (i :: commands) u) h.ready.free (resetReleased_of_noReset h.ready.noReset)
          hport, hreset]
        rfl
    _ = Answer.offer (commands.map encode) (exec i u) := by rw [accept_ok (decode_encode i), exec_offer]
    _ = .next (send commands v) := by rw [hv, send_eq_offer, (h.of_exec hv).port]; rfl

/-- Commands sent behind the frames offered find the engine these leave. -/
theorem Drained.run_send (commands : List Instr) (n : Nat) (h : Drained s u) (hl : s.resetLine = []) :
    run (s.offered.length + n) (send commands s) = run n (send commands u) :=
  run_add n (framesNotYetAcceptedHaveNoEffect commands s.offered.length s u hl le_rfl h.runs)

/-! ### Waiting for the response to one command -/

/-- With no reset to come, waiting is running and looking the response up. -/
theorem awaitResponse_of_noReset {index n : Nat} (hl : s.resetLine = []) (h : run n s = .next t) :
    awaitResponse index n s = .next (t.responses[index]?, t) := by
  refine awaitResponse_run (fun m w _ hw => ?_) h
  exact resetReleased_of_noReset
    (run_keeps (P := fun w => w.resetLine = []) (fun _ _ hl hstep => (step_takes_one hl hstep).1) hl hw)

/-- The command asked runs on the engine that the earlier frames leave, and its response is the one the host finds by
counting. -/
theorem Drained.ask_response {i : Instr} {r : Response} (h : Drained s u) (hr : Ready s) (hv : exec i u = .next v)
    (hresp : v.responses = u.responses ++ [r]) : ask i s = .next (some r, v) := by
  have hrun : run (s.offered.length + 1) (send [i] s) = .next v := by
    rw [h.run_send [i] 1 hr.noReset, run, step_send_cons [] h.atRest hv, send_nil]; rfl
  have hindex : s.issued = u.responses.length := by rw [State.issued, hr.free, h.count]; rfl
  rw [ask, awaitResponse_of_noReset (s := send [i] s) hr.noReset hrun, hindex, hresp, List.getElem?_concat_length]

/-- Asking behind the frames offered is asking the engine that they leave. -/
theorem Drained.ask_eq (i : Instr) (h : Drained s u) (hr : Ready s) : ask i s = ask i u := by
  have hready := h.atRest.ready
  obtain ⟨v, r, hv, hresp, -, -⟩ :=
    exec_answered i h.atRest.inv.wordCount_pos hready.answering hready.free
  rw [h.ask_response hr hv hresp, h.atRest.drained.ask_response hready hv hresp]

/-- While a hash request stays unanswered the engine keeps its state (60_exceptions.md R100). -/
theorem run_of_outstanding (ho : s.outstanding ≠ none) (hl : s.resetLine = []) (n : Nat) : run n s = .next s := by
  induction n with
  | zero => rfl
  | succ n ih =>
    obtain ⟨request, ho⟩ := Option.ne_none_iff_exists'.1 ho
    have hstep : step s = .next s := by
      rw [step_wait ho (resetReleased_of_noReset hl), advanceReset, hl, List.tail_nil, ← hl]
    rw [run, hstep]
    exact ih

/-- The command the engine holds counts as issued, so the response waited for is beyond those sent. -/
theorem ask_of_outstanding (i : Instr) (ho : s.outstanding ≠ none) (hl : s.resetLine = []) :
    ask i s = .next (none, send [i] s) := by
  have hrun := run_of_outstanding (s := send [i] s) ho hl (s.offered.length + 1)
  have hbeyond : s.responses.length ≤ s.issued := by rw [State.issued]; omega
  rw [ask, awaitResponse_of_noReset (s := send [i] s) hl hrun]
  exact congrArg (fun r => Host.Outcome.next (r, send [i] s)) (List.getElem?_eq_none hbeyond)

/-- Settles O45: the earlier frames leave the engine at rest, and the command asked runs next. -/
theorem askGetsItsOwnResponse : Obligations.AskGetsItsOwnResponse := by
  refine fun i s => ⟨fun hi hr => ?answered, ask_of_outstanding i⟩
  case answered =>
    obtain ⟨u, h⟩ := exists_drained hi hr
    obtain ⟨v, r, hv, hresp, -, -⟩ :=
      exec_answered i h.atRest.inv.wordCount_pos h.atRest.ready.answering h.atRest.ready.free
    exact ⟨u, v, r, h.runs, h.atRest.port, h.count, hv, hresp, h.ask_response hr hv hresp⟩

/-! ### ADDALL -/

theorem exec_add_gains_responds (payload : Bytes) (hw : 1 ≤ s.wordCount.toNat) (ha : s.hashUnit = .answersAll) :
    ∃ t, exec (.add payload) s = .next t ∧ Gains (probedBits payload s) s t ∧
      t.responses = s.responses ++ [⟨.ok, 0⟩] := by
  obtain ⟨w, hadd, -⟩ := addOn_answered (c := Config.chip) (payload := payload) hw ha
  exact ⟨_, hadd, ⟨rfl, rfl, rfl, rfl⟩, rfl⟩

/-- ADDALL on an engine at rest, by induction on the items: every ADD probes as it would in the first's place. -/
theorem run_send_addAll (items : List Bytes) (h : AtRest u) :
    ∃ t, run items.length (send (addAll items) u) = .next t ∧ AtRest t ∧
      t.responses = u.responses ++ List.replicate items.length ⟨.ok, 0⟩ ∧
      Gains (items.flatMap (probedBits · u)) u t := by
  induction items generalizing u with
  | nil => exact ⟨u, congrArg _ (send_nil u), h, (List.append_nil _).symm, rfl, rfl, rfl, rfl⟩
  | cons p items ih =>
    obtain ⟨v, hv, hgain, hresp⟩ := exec_add_gains_responds p h.inv.wordCount_pos h.ready.answering
    obtain ⟨t, hrun, hrest, hresps, hgains⟩ := ih (h.of_exec hv)
    refine ⟨t, ?run, hrest, ?responses, ?gains⟩
    case run =>
      rw [addAll, List.map_cons, List.length_cons, run, step_send_cons _ h hv]
      exact hrun
    case responses =>
      rw [hresps, hresp, List.append_assoc, List.length_cons, List.replicate_succ, List.singleton_append]
    case gains =>
      simp only [probedBits_congr _ hgain.wordCount hgain.probeCount] at hgains
      exact hgain.trans hgains

/-- Settles O41: the bits gained are the probed bits of all the items. -/
theorem addAllAddsEveryItem : Obligations.AddAllAddsEveryItem := by
  intro items s hi hr
  obtain ⟨u, h⟩ := exists_drained hi hr
  obtain ⟨t, hrun, hrest, hresp, hgains⟩ := run_send_addAll items h.atRest
  refine ⟨u, t, h.runs, (h.run_send _ _ hr.noReset).trans hrun, hresp, hgains.wordCount, hgains.probeCount, hrest.port,
    fun x => ?_⟩
  rw [hgains.bits, Memory.bit_setBits, Bool.or_eq_true, decide_eq_true_eq, List.mem_flatMap]
  simp only [mem_probedBits]

/-! ### CONTAINSALL -/

theorem sameArch.refl (s : State) : sameArch s s := ⟨rfl, rfl, rfl⟩

theorem sameArch.symm (h : sameArch s t) : sameArch t s := by
  obtain ⟨hw, hp, hb⟩ := h
  exact ⟨hw.symm, hp.symm, hb.symm⟩

theorem sameArch.trans (h : sameArch s t) (h' : sameArch t u) : sameArch s u := by
  obtain ⟨hw, hp, hb⟩ := h
  obtain ⟨hw', hp', hb'⟩ := h'
  exact ⟨hw'.trans hw, hp'.trans hp, hb'.trans hb⟩

theorem sameArch.allProbesSet_iff (h : sameArch s t) : allProbesSet payload t ↔ allProbesSet payload s :=
  ⟨(Rises.of_sameArch h.symm).allProbesSet, (Rises.of_sameArch h).allProbesSet⟩

/-- The host reads HIT back from VALUE. -/
theorem hitValue_eq_zero_iff (hit : Bool) : hitValue hit = 0 ↔ hit = false := by
  cases hit <;> decide

/-- CONTAINS asked of an engine at rest: HIT as VALUE, and the triple left as it was. -/
theorem AtRest.ask_contains (payload : Bytes) (h : AtRest u) :
    ∃ hit t, ask (.contains payload) u = .next (some ⟨.ok, hitValue hit⟩, t) ∧ AtRest t ∧ sameArch u t ∧
      t.responses.length = u.responses.length + 1 ∧ (hit = true ↔ allProbesSet payload u) := by
  obtain ⟨w, m, hcontains, hend⟩ := containsOn_answered_probesEnd (c := Config.chip) (payload := payload)
    h.inv.wordCount_pos h.ready.answering
  rw [← exec_contains_eq] at hcontains
  exact ⟨w.hit, _, h.drained.ask_response h.ready hcontains rfl, h.of_exec hcontains, ⟨rfl, rfl, rfl⟩, List.length_append,
    hend.hit_iff⟩

/-- What CONTAINSALL answers from `u` on, and the state `t` it leaves: every item is there, with one response each, or the
first that is absent ends the sequence (43_host_pseudo.md R83). -/
structure Conjunction (items : List Bytes) (u t : State) (b : Bool) : Prop where
  arch : sameArch u t
  all : b = true → (∀ p ∈ items, allProbesSet p u) ∧ t.responses.length = u.responses.length + items.length
  firstAbsent : b = false → ∃ before p after, items = before ++ p :: after ∧ (∀ q ∈ before, allProbesSet q u) ∧
    ¬ allProbesSet p u ∧ t.responses.length = u.responses.length + (before.length + 1)

theorem Conjunction.nil (u : State) : Conjunction [] u u true where
  arch := sameArch.refl u
  all _ := ⟨fun _ hp => absurd hp List.not_mem_nil, rfl⟩
  firstAbsent hb := absurd hb Bool.noConfusion

/-- A first item that is absent decides. -/
theorem Conjunction.cons_absent {p : Bytes} (items : List Bytes) (hp : ¬ allProbesSet p u) (harch : sameArch u t)
    (hlen : t.responses.length = u.responses.length + 1) : Conjunction (p :: items) u t false where
  arch := harch
  all hb := absurd hb Bool.noConfusion
  firstAbsent _ := ⟨[], p, items, rfl, fun _ hq => absurd hq List.not_mem_nil, hp, hlen⟩

/-- A first item that is there leaves the decision to the others. -/
theorem Conjunction.cons_present {p : Bytes} {items : List Bytes} {b : Bool} (hp : allProbesSet p u)
    (harch : sameArch u t) (hlen : t.responses.length = u.responses.length + 1) (h : Conjunction items t v b) :
    Conjunction (p :: items) u v b where
  arch := harch.trans h.arch
  all hb := by
    obtain ⟨hall, hcount⟩ := h.all hb
    refine ⟨List.forall_mem_cons.2 ⟨hp, fun q hq => harch.allProbesSet_iff.1 (hall q hq)⟩, ?_⟩
    rw [hcount, hlen, List.length_cons]
    omega
  firstAbsent hb := by
    obtain ⟨before, q, after, rfl, hbefore, hq, hcount⟩ := h.firstAbsent hb
    refine ⟨p :: before, q, after, rfl,
      List.forall_mem_cons.2 ⟨hp, fun r hr => harch.allProbesSet_iff.1 (hbefore r hr)⟩,
      fun h => hq (harch.allProbesSet_iff.2 h), ?_⟩
    rw [hcount, hlen, List.length_cons]
    omega

theorem Conjunction.answer_iff {items : List Bytes} {b : Bool} (h : Conjunction items u t b) :
    b = true ↔ ∀ p ∈ items, allProbesSet p u := by
  refine ⟨fun hb => (h.all hb).1, fun hall => ?_⟩
  by_contra hb
  obtain ⟨before, p, after, rfl, -, hp, -⟩ := h.firstAbsent (Bool.eq_false_of_not_eq_true hb)
  exact hp (hall p (by simp))

/-- CONTAINSALL on an engine at rest, by induction on the items. -/
theorem AtRest.containsAll_conjunction (items : List Bytes) (h : AtRest u) :
    ∃ t b, containsAll items u = .next (some b, t) ∧ Conjunction items u t b := by
  induction items generalizing u with
  | nil => exact ⟨u, true, rfl, Conjunction.nil u⟩
  | cons p items ih =>
    obtain ⟨hit, t, hask, hrest, harch, hlen, hhit⟩ := h.ask_contains p
    rw [containsAll, hask, Asked.andThen]
    match hit with
    | false =>
      rw [if_pos ((hitValue_eq_zero_iff false).2 rfl)]
      exact ⟨t, false, rfl, Conjunction.cons_absent items (fun hp => Bool.false_ne_true (hhit.2 hp)) harch hlen⟩
    | true =>
      rw [if_neg fun h0 => absurd ((hitValue_eq_zero_iff true).1 h0) Bool.noConfusion]
      obtain ⟨v, b, hrun, hconj⟩ := ih hrest
      exact ⟨v, b, hrun, hconj.cons_present (hhit.1 rfl) harch hlen⟩

/-- Settles O42: the first CONTAINS waits behind the frames offered; the others meet an empty port. -/
theorem containsAllIsTheConjunction : Obligations.ContainsAllIsTheConjunction := by
  intro items s hi hr
  obtain ⟨u, h⟩ := exists_drained hi hr
  match items with
  | [] =>
    exact ⟨u, s, true, h.runs, rfl, fun _ => rfl, fun hne => absurd rfl hne, (Conjunction.nil u).answer_iff,
      fun hne => absurd rfl hne, nofun⟩
  | p :: items =>
    obtain ⟨t, b, hrun, hconj⟩ := h.atRest.containsAll_conjunction (p :: items)
    refine ⟨u, t, b, h.runs, ?_, fun hnil => absurd hnil (List.cons_ne_nil p items), fun _ => hconj.arch,
      hconj.answer_iff, fun _ hb => (hconj.all hb).2, hconj.firstAbsent⟩
    rw [containsAll, h.ask_eq _ hr, ← containsAll]
    exact hrun

/-! ### RAWBITS -/

/-- RDWORD asked of an engine at rest, below WORDCOUNT. -/
theorem AtRest.ask_rdword {j : Nat} (h : AtRest u) (hj : j < u.wordCount.toNat) :
    ask (.rdword (BitVec.ofNat 64 j)) u = .next (some ⟨.ok, u.bits.read j⟩, respond .ok (u.bits.read j) u) := by
  have hindex : (BitVec.ofNat 64 j).toNat = j := Nat.mod_eq_of_lt (hj.trans u.wordCount.isLt)
  have hexec := exec_rdword_below (s := u) (index := BitVec.ofNat 64 j) (by rwa [hindex])
  rw [hindex] at hexec
  exact h.drained.ask_response h.ready hexec rfl

/-- The RDWORDs of RAWBITS on an engine at rest, by induction on their number. -/
theorem AtRest.readWords_eq {n j : Nat} (h : AtRest u) (hn : j + n ≤ u.wordCount.toNat) :
    readWords n j u = .next (some ((List.range' j n).map u.bits.read), { u with
      responses := u.responses ++ (List.range' j n).map (fun j => ⟨.ok, u.bits.read j⟩) }) := by
  induction n generalizing u j with
  | zero => simp [readWords]
  | succ n ih =>
    have hrest : AtRest (respond .ok (u.bits.read j) u) :=
      ⟨h.inv.of_sameArch ⟨rfl, rfl, rfl⟩, ⟨h.ready.free, h.ready.answering, h.ready.noReset⟩, h.port⟩
    have hwords := ih (j := j + 1) hrest (by rw [respond_wordCount]; omega)
    rw [readWords, h.ask_rdword (by omega), Asked.andThen, hwords, Asked.andThen]
    simp [respond, List.range'_succ]

/-- Settles O43: CAPACITY gives the number of RDWORDs, and none of them writes the store. -/
theorem rawBitsReadsTheWholeStore : Obligations.RawBitsReadsTheWholeStore := by
  intro s hi hr
  obtain ⟨u, h⟩ := exists_drained hi hr
  refine ⟨u, h.runs, ?_⟩
  have hexec : exec .capacity u = .next (respond .ok u.wordCount u) := rfl
  have hwords := (h.atRest.of_exec hexec).readWords_eq (n := u.wordCount.toNat) (j := 0) (Nat.zero_add _).le
  rw [rawBits, h.ask_response hr hexec rfl, Asked.andThen, hwords]
  simp [respond, List.range_eq_range']

/-! ### CREATE_EST -/

/-- Settles O44: `m` reaches CREATE as its word count. -/
theorem createEstTakesBitsAsWords : Obligations.CreateEstTakesBitsAsWords := by
  intro m k s hfits
  refine ⟨_, _, clamp m, createOn_fits hfits, ?_, rfl, rfl, toNat_clamp m⟩
  rw [State.totalBits_eq, respond_wordCount, toNat_clamp, Nat.mul_comm]

end Sys2Proof.Machine

/-! Errors, idling and a hash unit that falls silent (60_exceptions.md): what an error response leaves, what a step does
with no command to run, and where ADD and CONTAINS stop when a request is never answered. -/

namespace Sys2Proof.Machine

variable {c : Chip} {payload : Bytes} {s t : State}

/-! ### A hash request that is never answered -/

/-- PROBE_INIT whose request, the payload's, is never answered. -/
theorem probeInit_waits (hu : s.hashUnit = .answersOnly 0) :
    probeInit c payload s = .waits
      { s with hashRequests := s.hashRequests ++ [payload], outstanding := some payload } := by
  rw [probeInit, hashReq_silent hu]
  rfl

/-- `s` after the payload's request was answered, with `m` more answers to come and the working registers `w`. -/
def State.payloadHashed (payload : Bytes) (m : Nat) (w : Working) (s : State) : State :=
  { s with work := w, hashRequests := s.hashRequests ++ [payload], outstanding := none, hashUnit := .answersOnly m }

/-- PROBE_INIT by a hash unit that answers `m` more requests after the payload's. -/
theorem probeInit_payloadHashed {m : Nat} (hu : s.hashUnit = .answersOnly (m + 1)) :
    ∃ w, probeInit c payload s = .done () (s.payloadHashed payload m w) ∧
      ProbeAt c payload 0 (s.payloadHashed payload m w) := by
  obtain ⟨w, hinit, hp, -⟩ := probeInit_done (c := c) (payload := payload) (u := .answersOnly m) (by rw [hu]; rfl)
  exact ⟨w, hinit, hp.base, hp.i, hp.ctr⟩

/-- Probe 0 makes no request (41_probe_sequence.md R67), so it ends whatever the hash unit does. -/
theorem probeStep_zero {t : Nat} (ht : 0 < t) (hp : ProbeAt c payload 0 s) :
    ∃ w, probeStep c ht s = .done ⟨probeIndex c payload t 0, probeIndex_lt ht 0⟩ { s with work := w } ∧
      ProbeAt c payload 1 { s with work := w } := by
  obtain ⟨w, hstep, hdone⟩ := probeStep_done (u := s.hashUnit) ht (by decide) hp rfl
  refine ⟨w, hstep.trans ?_, ⟨hdone.base, hdone.i, hdone.ctr⟩⟩
  rw [if_pos rfl, if_pos rfl, List.append_nil]

/-- The payload's request and those of probes 1 to `n` are the first requests of R99: probe 0 makes none. -/
theorem payload_requestsFrom_one (n : Nat) :
    payload :: requestsFrom c payload 1 n = hashRequestList c payload (n + 1) := by
  have h := payload_requestsFrom (c := c) (payload := payload) (n + 1)
  rwa [requestsFrom_succ, if_pos rfl, List.nil_append, Nat.max_eq_left (Nat.le_add_left 1 n)] at h

theorem indicesFrom_zero_succ (t n : Nat) :
    indicesFrom c payload t 0 (n + 1) = probeIndex c payload t 0 :: indicesFrom c payload t 1 n := rfl

/-- When the loop of ADD waits, so does the command (60_exceptions.md R100). -/
theorem addOn_of_waits {u : State} (ht : 0 < s.totalBits)
    (h : (probeInit c payload s).andThen (fun _ s1 => addProbes c ht s.probeCount.toNat s1) = .waits u) :
    addOn c payload s = .next u := by
  rw [addOn, dif_pos ht, h]
  rfl

/-- When the loop of CONTAINS waits, so does the command (60_exceptions.md R100). -/
theorem containsOn_of_waits {u : State} (ht : 0 < s.totalBits)
    (h : (probeInit c payload s).andThen (fun _ s1 => containsProbes c ht s.probeCount.toNat (setHit true s1)) =
      .waits u) :
    containsOn c payload s = .next u := by
  rw [containsOn, dif_pos ht, h]
  rfl

/-- ADD stops at request `q`, with the bits of the probes before it set (60_exceptions.md R100). Request 0 is the
payload's and comes before every probe; request `m + 1` is that of probe `m + 1`. -/
theorem addOn_stops {q : Nat} (hw : 1 ≤ s.wordCount.toNat) (hu : s.hashUnit = .answersOnly q)
    (hq : q < s.probeCount.toNat) :
    ∃ w, addOn c payload s = .next
      { s with
        work := w
        bits := s.bits.setBits (indicesFrom c payload s.totalBits 0 q)
        hashRequests := s.hashRequests ++ hashRequestList c payload (q + 1)
        outstanding := some (hashRequest c payload q)
        hashUnit := .answersOnly 0 } := by
  have ht := State.totalBits_pos hw
  cases q with
  | zero =>
    refine ⟨s.work, addOn_of_waits ht ?_⟩
    rw [probeInit_waits hu, ← hu]
    rfl
  | succ m =>
    obtain ⟨n, hn⟩ := Nat.exists_eq_add_one_of_ne_zero (by omega : s.probeCount.toNat ≠ 0)
    have hlt : s.probeCount.toNat < 2 ^ 64 := s.probeCount.isLt
    obtain ⟨w0, hinit, hbefore⟩ := probeInit_payloadHashed (c := c) (payload := payload) hu
    obtain ⟨w1, hfirst, hnext⟩ := probeStep_zero ht hbefore
    obtain ⟨w, hrest, -⟩ := addProbes_waits ht (n := n) (m := m) (by omega) (by omega) Nat.one_ne_zero
      (s := setBit ⟨probeIndex c payload s.totalBits 0, probeIndex_lt ht 0⟩ (s.payloadHashed payload m w1))
      ⟨hnext.base, hnext.i, hnext.ctr⟩ rfl rfl
    refine ⟨w, addOn_of_waits ht ?_⟩
    calc _
      _ = addProbes c ht (n + 1) (s.payloadHashed payload m w0) := by rw [hinit, hn]; rfl
      _ = addProbes c ht n (setBit ⟨_, probeIndex_lt ht 0⟩ (s.payloadHashed payload m w1)) := by
        rw [addProbes, hfirst]; rfl
      _ = _ := hrest
      _ = _ := by
        simp only [State.payloadHashed, setBit_eq, List.append_assoc, List.singleton_append, payload_requestsFrom_one,
          indicesFrom_zero_succ, Memory.setBits_cons, Nat.add_comm 1 m]

/-- CONTAINS stops at request `q` when no probe before it misses, and has written no bit (60_exceptions.md R100). -/
theorem containsOn_stops {q : Nat} (hw : 1 ≤ s.wordCount.toNat) (hu : s.hashUnit = .answersOnly q)
    (hq : q < s.probeCount.toNat) (hset : ∀ i, i < q → s.bits.bit (probeIndex c payload s.totalBits i) = true) :
    ∃ w, containsOn c payload s = .next
      { s with
        work := w
        hashRequests := s.hashRequests ++ hashRequestList c payload (q + 1)
        outstanding := some (hashRequest c payload q)
        hashUnit := .answersOnly 0 } := by
  have ht := State.totalBits_pos hw
  cases q with
  | zero =>
    refine ⟨s.work, containsOn_of_waits ht ?_⟩
    rw [probeInit_waits hu, ← hu]
    rfl
  | succ m =>
    obtain ⟨n, hn⟩ := Nat.exists_eq_add_one_of_ne_zero (by omega : s.probeCount.toNat ≠ 0)
    have hlt : s.probeCount.toNat < 2 ^ 64 := s.probeCount.isLt
    obtain ⟨w0, hinit, hbefore⟩ := probeInit_payloadHashed (c := c) (payload := payload) hu
    obtain ⟨w1, hfirst, hnext⟩ := probeStep_zero ht (s := setHit true (s.payloadHashed payload m w0))
      ⟨hbefore.base, hbefore.i, hbefore.ctr⟩
    obtain ⟨w, hrest⟩ := containsProbes_waits ht (n := n) (m := m) (by omega) (by omega) Nat.one_ne_zero
      (s := noteBitAddress (⟨probeIndex c payload s.totalBits 0, probeIndex_lt ht 0⟩ : Fin s.totalBits)
        (s.payloadHashed payload m w1))
      ⟨hnext.base, hnext.i, hnext.ctr⟩ rfl rfl
      fun i hi => by rw [Nat.add_comm 1 i]; exact hset (i + 1) (by omega)
    refine ⟨w, containsOn_of_waits ht ?_⟩
    calc _
      _ = containsProbes c ht (n + 1) (setHit true (s.payloadHashed payload m w0)) := by rw [hinit, hn]; rfl
      _ = containsProbes c ht n (noteBitAddress ⟨_, probeIndex_lt ht 0⟩ (s.payloadHashed payload m w1)) := by
        rw [containsProbes, hfirst]
        simp only [Progress.andThen, testBit, setHit, State.payloadHashed, hset 0 (Nat.succ_pos m)]
      _ = _ := hrest
      _ = _ := by
        simp only [State.payloadHashed, noteBitAddress, List.append_assoc, List.singleton_append,
          payload_requestsFrom_one, Nat.add_comm 1 m]

/-- Settles O27: the state where ADD stops, its store read bit by bit. -/
theorem aSilentHashUnitStopsAnAddMidway : Obligations.ASilentHashUnitStopsAnAddMidway := by
  intro payload s q hw hu hq
  obtain ⟨w, hadd⟩ := addOn_stops (c := Config.chip) (payload := payload) hw hu hq
  refine ⟨_, hadd, rfl, rfl, rfl, rfl, rfl, fun x => ?_⟩
  rw [Memory.bit_setBits, Bool.or_eq_true, decide_eq_true_eq, mem_indicesFrom_zero]
  rfl

/-- Settles O28: the state where CONTAINS stops, whose architectural triple nothing has written. -/
theorem aSilentHashUnitStopsAContainsMidway : Obligations.ASilentHashUnitStopsAContainsMidway := by
  intro payload s q hw hu hq hset
  obtain ⟨w, hcontains⟩ := containsOn_stops (c := Config.chip) (payload := payload) hw hu hq hset
  exact ⟨_, hcontains, rfl, rfl, rfl, rfl, rfl, rfl⟩

/-! ### Error responses -/

/-- From `s` to `t` no response was sent, or one whose STATUS is OK. -/
def AnswersNoError (s t : State) : Prop :=
  t.responses = s.responses ∨ ∃ v, t.responses = s.responses ++ [⟨.ok, v⟩]

/-- A command whose probes send no response answers OK at its end, or waits. -/
theorem Progress.finish_answersNoError {p : Progress Unit} {k : Unit → State → State}
    (hp : p.state.responses = s.responses) (hk : ∀ a u, ∃ v, (k a u).responses = u.responses ++ [⟨.ok, v⟩]) :
    AnswersNoError s (p.finish k) := by
  cases p with
  | done a u =>
    obtain ⟨v, hv⟩ := hk a u
    exact .inr ⟨v, hv.trans (congrArg (· ++ _) hp)⟩
  | waits u => exact .inl hp

theorem addOn_answersNoError (h : addOn c payload s = .next t) : AnswersNoError s t := by
  rw [addOn] at h
  split at h
  next ht =>
    cases h
    refine Progress.finish_answersNoError (OnlySets.responses (t := s.totalBits) ?_) fun _ _ => ⟨_, rfl⟩
    exact Progress.andThen_state (probeInit_onlySets _ s) fun _ u => addProbes_onlySets ht _ u
  next => cases h

theorem containsOn_answersNoError (h : containsOn c payload s = .next t) : AnswersNoError s t := by
  rw [containsOn] at h
  split at h
  next ht =>
    cases h
    refine Progress.finish_answersNoError (OnlySets.responses (t := 0) ?_) fun _ _ => ⟨_, rfl⟩
    exact Progress.andThen_state (probeInit_onlySets _ s) fun _ u =>
      (setHit_keeps true u).trans (containsProbes_keeps ht _ _)
  next => cases h

/-- A command answers no error, or it is nothing but the taking of an error: CREATE's ERR_CAPACITY and RDWORD's
ERR_RANGE (60_exceptions.md R90, R91). -/
theorem exec_raises_or_answersNoError {i : Instr} (h : exec i s = .next t) :
    (∃ e, t = raise e s) ∨ AnswersNoError s t := by
  cases i with
  | create a k =>
    rcases Nat.lt_or_ge Config.chip.wMax (max a.toNat 1) with hbig | hfits
    · rw [exec_create_eq, createOn_refused hbig] at h
      cases h
      exact .inl ⟨_, rfl⟩
    · rw [exec_create_eq, createOn_fits hfits] at h
      cases h
      exact .inr (.inr ⟨_, rfl⟩)
  | add payload => exact .inr (addOn_answersNoError h)
  | contains payload => exact .inr (containsOn_answersNoError h)
  | capacity => cases h; exact .inr (.inr ⟨_, rfl⟩)
  | probecount => cases h; exact .inr (.inr ⟨_, rfl⟩)
  | rdword index =>
    rcases Nat.lt_or_ge index.toNat s.wordCount.toNat with hbelow | hbeyond
    · rw [exec_rdword_below hbelow] at h
      cases h
      exact .inr (.inr ⟨_, rfl⟩)
    · rw [exec_rdword_beyond hbeyond] at h
      cases h
      exact .inl ⟨_, rfl⟩

/-- So does an accepted frame, whose own error is ERR_ILLEGAL (60_exceptions.md R89). -/
theorem accept_raises_or_answersNoError {f : Frame} (h : accept f s = .next t) :
    (∃ e, t = raise e s) ∨ AnswersNoError s t := by
  rcases accept_cases h with ⟨i, -, hi⟩ | ⟨-, -, ht⟩
  · exact exec_raises_or_answersNoError hi
  · exact .inl ⟨_, ht⟩

/-- A response that is sent while no error is answered has STATUS OK. -/
theorem AnswersNoError.status_ok {r : Response} (h : AnswersNoError s t) (hr : t.responses = s.responses ++ [r]) :
    r.status = .ok := by
  rcases h with h | ⟨v, h⟩
  · rw [h] at hr
    exact absurd hr.symm (by simp)
  · obtain rfl : r = ⟨.ok, v⟩ := by simpa using hr.symm.trans h
    rfl

/-- Settles O30: a STATUS that is not OK comes from the taking of an error, which is its response with VALUE 0. -/
theorem errorResponsesChangeNothing : Obligations.ErrorResponsesChangeNothing := by
  intro f s t r h hr hstatus
  rcases accept_raises_or_answersNoError h with ⟨e, rfl⟩ | hok
  · obtain rfl : r = ⟨e.status, 0⟩ := by simpa [raise_eq] using hr.symm
    exact ⟨rfl, rfl⟩
  · exact absurd (hok.status_ok hr) hstatus

/-! ### Steps with no command to run -/

/-- A frame whose W0 is no row of the opcode map decodes to nothing (30_encoding.md R54). -/
theorem decode_eq_error {f : Frame} (h : ∀ o : Opcode, f.w0 ≠ o.w0) : ∃ e, decode f = .error e := by
  match hd : decode f with
  | .ok i =>
    obtain ⟨o, ho, -⟩ := decode_eq_ok.1 hd
    exact absurd ho (h o)
  | .error e => exact ⟨e, rfl⟩

/-- Settles O24: the free engine takes the frame, which decodes to nothing and so only raises ERR_ILLEGAL. -/
theorem anIllegalFrameAnswersIllegal : Obligations.AnIllegalFrameAnswersIllegal := by
  intro s f rest ho hr hf h1 h2 h3 h4 h5 h6
  have hw0 : ∀ o : Opcode, f.w0 ≠ o.w0
    | .create => h1
    | .add => h2
    | .contains => h3
    | .capacity => h4
    | .probecount => h5
    | .rdword => h6
  obtain ⟨e, he⟩ := decode_eq_error hw0
  exact (step_frame ho hr hf).trans (accept_error he _)

/-- Settles O25. -/
theorem anIdleEngineKeepsItsState : Obligations.AnIdleEngineKeepsItsState := fun _ => step_idle

/-- Settles O26. -/
theorem anUnansweredRequestHoldsTheEngine : Obligations.AnUnansweredRequestHoldsTheEngine := fun _ _ => step_wait

end Sys2Proof.Machine

/-! ## The reset input -/

namespace Sys2Proof.Machine

/-- Reset writes the reset state's architectural triple over whatever was there (10_state.md R28). -/
theorem sameArch_reset_resetEngine (offered : List Frame) (s : State) :
    sameArch State.reset (resetEngine offered s) :=
  ⟨resetEngine_wordCount .., resetEngine_probeCount .., resetEngine_bits ..⟩

/-- Settles O2: the reset input comes before anything the engine holds, so the step is the reset, read field by field. -/
theorem resetInputReturnsToTheResetState : Obligations.ResetInputReturnsToTheResetState := by
  intro s offered rest h
  have hrest : (resetEngine offered (advanceReset s)).resetLine = rest := by simp [h]
  exact ⟨_, step_reset h, sameArch_reset_resetEngine .., resetEngine_outstanding .., resetEngine_responses ..,
    resetEngine_hashRequests .., resetEngine_offered .., hrest, resetEngine_hashUnit ..⟩

end Sys2Proof.Machine
